-- ==== Sys2Proof/Word.lean ====
section
/-! DEFINITION. The word types of the core (00_scope.md R7, R11, R13). -/

namespace Sys2Proof

/-- A byte, 8 bits (R7). -/
abbrev Byte := BitVec 8

/-- A word of the register port, 32 bits (R11). -/
abbrev Word := BitVec 32

/-- A `MEM` address as `SRC` and `DST` carry it, 16 bits (R11, R50). -/
abbrev Addr := BitVec 16

/-- A block, or a key: 16 bytes, position 0 first (R7, R13). -/
abbrev Block := Vector Byte 16

/-- A sequence of 16 indices; a permutation of the positions when they are distinct (R13). -/
abbrev Perm := Vector (Fin 16) 16

end Sys2Proof
end

