-- ==== Sys2Proof/Syntax.lean ====
section
/-! DEFINITION. The commands of the core: one constructor per row of the opcode map (30_encoding.md R77). -/

namespace Sys2Proof

/-- A command. `kb` is the key byte of a layer command (R74), `ridx` the round index of a round command (R73).
The block and message commands have no operand in the word (R75). -/
inductive Instr where
  /-- `SUBF`, substitution forward (R95). -/
  | subf (kb : Byte)
  /-- `SUBI`, substitution inverse (R96). -/
  | subi (kb : Byte)
  /-- `PERF`, permutation forward (R99). -/
  | perf (kb : Byte)
  /-- `PERI`, permutation inverse (R100). -/
  | peri (kb : Byte)
  /-- `MIX`, key mixing (R102); `UNMIX` is another spelling (R81). -/
  | mix (kb : Byte)
  /-- `RNDF`, one forward round (R110). -/
  | rndf (ridx : Fin 16)
  /-- `RNDI`, one inverse round (R111). -/
  | rndi (ridx : Fin 16)
  /-- `ENCB`, encrypt `BLK` (R113). -/
  | encb
  /-- `DECB`, decrypt `BLK` (R114). -/
  | decb
  /-- `PAD`, pad a message (R137). -/
  | pad
  /-- `UNPAD`, check and remove padding (R139). -/
  | unpad
  /-- `ENC`, encrypt a message (R141). -/
  | enc
  /-- `DEC`, decrypt a ciphertext (R143). -/
  | dec
  deriving DecidableEq, Repr

end Sys2Proof
end

