-- ==== Sys2Proof/WellFormed.lean ====
section
/-! DEFINITION. Which commands can be written: the operand checks of the assembler (30_encoding.md R80, R81), and what
they leave to check of an `Instr`, whose operand types already hold only the legal values (R73, R74). -/

namespace Sys2Proof

/-- The names the assembler knows: the 13 commands of R77 and the pseudo-instruction `UNMIX` of R81. -/
inductive Mnemonic where
  | SUBF | SUBI | PERF | PERI | MIX | UNMIX | RNDF | RNDI | ENCB | DECB | PAD | UNPAD | ENC | DEC
  deriving DecidableEq, Repr

/-- The spelling of a name (R77, R81). -/
def Mnemonic.spelling : Mnemonic → List Char
  | .SUBF => ['S', 'U', 'B', 'F']
  | .SUBI => ['S', 'U', 'B', 'I']
  | .PERF => ['P', 'E', 'R', 'F']
  | .PERI => ['P', 'E', 'R', 'I']
  | .MIX => ['M', 'I', 'X']
  | .UNMIX => ['U', 'N', 'M', 'I', 'X']
  | .RNDF => ['R', 'N', 'D', 'F']
  | .RNDI => ['R', 'N', 'D', 'I']
  | .ENCB => ['E', 'N', 'C', 'B']
  | .DECB => ['D', 'E', 'C', 'B']
  | .PAD => ['P', 'A', 'D']
  | .UNPAD => ['U', 'N', 'P', 'A', 'D']
  | .ENC => ['E', 'N', 'C']
  | .DEC => ['D', 'E', 'C']

/-- One line of assembly (R80): a name and at most one number. -/
structure AsmLine where
  name : Mnemonic
  operand : Option Nat
  deriving DecidableEq, Repr

/-- R80: `KB` is a number 0..255, `RIDX` a number 0..15, and the other commands take no operand. A line that breaks
this is an assembly error. -/
def AsmLine.wellFormed (l : AsmLine) : Bool :=
  match l.name, l.operand with
  | .SUBF, some k | .SUBI, some k | .PERF, some k | .PERI, some k | .MIX, some k | .UNMIX, some k => k < 256
  | .RNDF, some r | .RNDI, some r => r < 16
  | .ENCB, none | .DECB, none | .PAD, none | .UNPAD, none | .ENC, none | .DEC, none => true
  | _, _ => false

/-- The operand ranges of R73 and R74. Every value of the operand types lies in them
(`Laws.instr_wellFormed`), so every `Instr` is well formed. -/
def Instr.wellFormed : Instr → Bool
  | .subf kb => kb.toNat < 256
  | .subi kb => kb.toNat < 256
  | .perf kb => kb.toNat < 256
  | .peri kb => kb.toNat < 256
  | .mix kb => kb.toNat < 256
  | .rndf r => r.val < 16
  | .rndi r => r.val < 16
  | .encb => true
  | .decb => true
  | .pad => true
  | .unpad => true
  | .enc => true
  | .dec => true

end Sys2Proof
end

