-- ==== Sys2Proof/Decode.lean ====
section
/-! DEFINITION. The decoder of a command word, total, rejecting by name (30_encoding.md R70 to R79); the opcode table
it is held against (R77); the encoder; and the assembler (R80, R81). -/

namespace Sys2Proof

/-- `OP = w[7:0]` (R70, R72). -/
def fieldOp (w : Word) : BitVec 8 := w.extractLsb' 0 8

/-- `RIDX = w[11:8]` (R70, R73). -/
def fieldRidx (w : Word) : BitVec 4 := w.extractLsb' 8 4

/-- The reserved bits `w[15:12]` (R70). -/
def fieldReservedLow (w : Word) : BitVec 4 := w.extractLsb' 12 4

/-- `KB = w[23:16]` (R70, R74). -/
def fieldKb (w : Word) : BitVec 8 := w.extractLsb' 16 8

/-- The reserved bits `w[31:24]` (R70). -/
def fieldReservedHigh (w : Word) : BitVec 8 := w.extractLsb' 24 8

/-- Why a word is an illegal command (R78). The core reports all four alike, as `ERR_ILLEGAL_CMD` (R150). -/
inductive Illegal where
  /-- A reserved bit is not 0 (R76). -/
  | reservedBits
  /-- `RIDX` is not 0 and the command does not use it (R76). -/
  | unusedRidx
  /-- `KB` is not 0 and the command does not use it (R76). -/
  | unusedKb
  /-- `OP` selects no command (R78). -/
  | unknownOp
  deriving DecidableEq, Repr

/-- A layer command: `RIDX` must be 0, the operand is `KB` (R79). -/
def decodeLayer (w : Word) (mk : Byte → Instr) : Except Illegal Instr :=
  if fieldRidx w = 0 then .ok (mk (fieldKb w)) else .error .unusedRidx

/-- A round command: `KB` must be 0, the operand is `RIDX` (R79). -/
def decodeRound (w : Word) (mk : Fin 16 → Instr) : Except Illegal Instr :=
  if fieldKb w = 0 then .ok (mk (fieldRidx w).toFin) else .error .unusedKb

/-- A block or message command: `RIDX` and `KB` must be 0 (R79). -/
def decodePlain (w : Word) (i : Instr) : Except Illegal Instr :=
  if fieldRidx w ≠ 0 then .error .unusedRidx
  else if fieldKb w ≠ 0 then .error .unusedKb
  else .ok i

/-- The decoder of R79. -/
def decode (w : Word) : Except Illegal Instr :=
  if fieldReservedHigh w ≠ 0 ∨ fieldReservedLow w ≠ 0 then .error .reservedBits
  else
    match fieldOp w with
    | 0x01#8 => decodeLayer w .subf
    | 0x02#8 => decodeLayer w .subi
    | 0x03#8 => decodeLayer w .perf
    | 0x04#8 => decodeLayer w .peri
    | 0x05#8 => decodeLayer w .mix
    | 0x08#8 => decodeRound w .rndf
    | 0x09#8 => decodeRound w .rndi
    | 0x10#8 => decodePlain w .encb
    | 0x11#8 => decodePlain w .decb
    | 0x20#8 => decodePlain w .pad
    | 0x21#8 => decodePlain w .unpad
    | 0x22#8 => decodePlain w .enc
    | 0x23#8 => decodePlain w .dec
    | _ => .error .unknownOp

/-- The instruction the decoder reads from a table row's word of `nbits` bits; the bits above them are 0. Every row has
32 bits and a command is one 32-bit value written whole (R71), so no byte order enters. -/
def decodeTableWord (nbits w : Nat) : Option Instr :=
  (decode (BitVec.ofNat 32 (w % 2 ^ nbits))).toOption

/-- A row of the opcode map (R77). -/
structure OpRow where
  mnemonic : String
  matchBits : Word
  maskBits : Word
  deriving DecidableEq, Repr

/-- R77: a word selects a row when `w AND mask = match`. -/
def OpRow.selects (row : OpRow) (w : Word) : Bool := w &&& row.maskBits = row.matchBits

/-- The opcode map, row by row as R77 prints it. -/
def opcodeTable : List OpRow :=
  [ ⟨"SUBF", 0x00000001, 0xFF00FFFF⟩, ⟨"SUBI", 0x00000002, 0xFF00FFFF⟩, ⟨"PERF", 0x00000003, 0xFF00FFFF⟩,
    ⟨"PERI", 0x00000004, 0xFF00FFFF⟩, ⟨"MIX", 0x00000005, 0xFF00FFFF⟩, ⟨"RNDF", 0x00000008, 0xFFFFF0FF⟩,
    ⟨"RNDI", 0x00000009, 0xFFFFF0FF⟩ ] ++
  [ ⟨"ENCB", 0x00000010, 0xFFFFFFFF⟩, ⟨"DECB", 0x00000011, 0xFFFFFFFF⟩, ⟨"PAD", 0x00000020, 0xFFFFFFFF⟩,
    ⟨"UNPAD", 0x00000021, 0xFFFFFFFF⟩, ⟨"ENC", 0x00000022, 0xFFFFFFFF⟩, ⟨"DEC", 0x00000023, 0xFFFFFFFF⟩ ]

/-- The name of a command's row (R77). -/
def Instr.mnemonic : Instr → String
  | .subf _ => "SUBF"
  | .subi _ => "SUBI"
  | .perf _ => "PERF"
  | .peri _ => "PERI"
  | .mix _ => "MIX"
  | .rndf _ => "RNDF"
  | .rndi _ => "RNDI"
  | .encb => "ENCB"
  | .decb => "DECB"
  | .pad => "PAD"
  | .unpad => "UNPAD"
  | .enc => "ENC"
  | .dec => "DEC"

/-- The pattern `00000000 kkkkkkkk 00000000 op` (R77). -/
def layerWord (op : BitVec 8) (kb : Byte) : Word := 0#8 ++ kb ++ 0#8 ++ op

/-- The pattern `00000000 00000000 0000rrrr op` (R77). -/
def roundWord (op : BitVec 8) (r : Fin 16) : Word := 0#16 ++ 0#4 ++ BitVec.ofFin (w := 4) r ++ op

/-- The pattern `00000000 00000000 00000000 op` (R77). -/
def plainWord (op : BitVec 8) : Word := 0#24 ++ op

/-- The word of a command (R77). -/
def encode : Instr → Word
  | .subf kb => layerWord 0x01 kb
  | .subi kb => layerWord 0x02 kb
  | .perf kb => layerWord 0x03 kb
  | .peri kb => layerWord 0x04 kb
  | .mix kb => layerWord 0x05 kb
  | .rndf r => roundWord 0x08 r
  | .rndi r => roundWord 0x09 r
  | .encb => plainWord 0x10
  | .decb => plainWord 0x11
  | .pad => plainWord 0x20
  | .unpad => plainWord 0x21
  | .enc => plainWord 0x22
  | .dec => plainWord 0x23

/-- The command of a well-formed line of assembly (R80); `UNMIX k` is `MIX k` (R81); no command for a line that is an
assembly error. -/
def AsmLine.assemble (l : AsmLine) : Option Instr :=
  if l.wellFormed then
    let n := l.operand.getD 0
    let kb : Byte := BitVec.ofNat 8 n
    let r : Fin 16 := Fin.ofNat 16 n
    match l.name with
    | .SUBF => some (.subf kb)
    | .SUBI => some (.subi kb)
    | .PERF => some (.perf kb)
    | .PERI => some (.peri kb)
    | .MIX => some (.mix kb)
    | .UNMIX => some (.mix kb)
    | .RNDF => some (.rndf r)
    | .RNDI => some (.rndi r)
    | .ENCB => some .encb
    | .DECB => some .decb
    | .PAD => some .pad
    | .UNPAD => some .unpad
    | .ENC => some .enc
    | .DEC => some .dec
  else none

/-! ## The text of a line (R80) -/

/-- The value of a digit in base 10 or 16. -/
def digitValue (base : Nat) (c : Char) : Option Nat :=
  let n := c.toNat
  let v := if 48 ≤ n ∧ n ≤ 57 then n - 48 else if 97 ≤ n ∧ n ≤ 102 then n - 87 else if 65 ≤ n ∧ n ≤ 70 then n - 55 else base
  if v < base then some v else none

/-- The value of a sequence of digits after `acc`. -/
def digitsValue (base : Nat) : Nat → List Char → Option Nat
  | acc, [] => some acc
  | acc, c :: cs =>
    match digitValue base c with
    | none => none
    | some d => digitsValue base (base * acc + d) cs

/-- R80: numbers are decimal, or hexadecimal with the prefix `0x`. -/
def parseNumber : List Char → Option Nat
  | [] => none
  | ['0', 'x'] => none
  | '0' :: 'x' :: cs => digitsValue 16 0 cs
  | cs => digitsValue 10 0 cs

/-- The name with a spelling. -/
def Mnemonic.ofSpelling (cs : List Char) : Option Mnemonic :=
  [Mnemonic.SUBF, .SUBI, .PERF, .PERI, .MIX, .UNMIX, .RNDF, .RNDI, .ENCB, .DECB, .PAD, .UNPAD, .ENC, .DEC].find?
    fun n => n.spelling == cs

/-- R80: the mnemonic, then the operand if there is one, after one space (assumption 20). -/
def AsmLine.parse (line : List Char) : Option AsmLine :=
  match Mnemonic.ofSpelling (line.takeWhile (· != ' ')), line.dropWhile (· != ' ') with
  | none, _ => none
  | some n, [] => some ⟨n, none⟩
  | some n, _ :: cs => (parseNumber cs).map fun k => ⟨n, some k⟩

/-- The word a line of text assembles to; none for an assembly error (R80). -/
def assembleLine (line : List Char) : Option Word :=
  match AsmLine.parse line with
  | none => none
  | some l => l.assemble.map encode

end Sys2Proof
end

