-- ==== Sys2Proof/Config.lean ====
section
/-! DEFINITION. The implementation parameters of the core (00_scope.md R8, R9) and the free values, which no rule fixes. -/

namespace Sys2Proof

/-- The permutation generator `PERM_GEN` (R9): the default one of R94, or any other one, given by the permutation
it makes of each of the 256 key bytes. -/
inductive PermGen where
  /-- `DEFAULT_PERM_GEN`: the linear congruential generator driving a Fisher-Yates shuffle (R94). -/
  | lcgShuffle
  /-- Row `k` is the permutation of key byte `k`. -/
  | table (rows : Vector Perm 256)
  deriving DecidableEq, Repr

/-- The parameters of one core (R8, R9). `LATENCY` (R10) is no number here: it is the events that come before the
core's turn (assumption 1). -/
structure Config where
  /-- `MEM_BYTES`, legal in 1..65536 (R8). -/
  memBytes : Nat
  /-- `PERM_GEN` (R9). -/
  permGen : PermGen
  deriving DecidableEq, Repr

/-- The spec's defaults: `MEM_BYTES = 4096` (R8) and `DEFAULT_PERM_GEN` (R9). -/
def Config.standard : Config := { memBytes := 4096, permGen := .lcgShuffle }

/-- FREE VALUE: what the `n`-th draw gives a host that reads `BLK` while `BUSY = 1` (R43, U6; assumption 7). -/
opaque Config.freeWord : Nat → Word

/-- FREE VALUE: what the `n`-th draw gives a host that reads a byte of the destination range of a running message
command (R63, U7; assumption 8). -/
opaque Config.freeByte : Nat → Byte

/-- FREE VALUE: whether, in the `n`-th draw, the destination byte at this address of a command abandoned by reset
holds the value the command would have written (R171, U10; assumption 10). -/
opaque Config.freePick : Nat → Nat → Bool

end Sys2Proof
end

