-- ==== Sys2Proof/Machine/Cipher.lean ====
section
/-! DEFINITION. The pure functions of the cipher, under the source's names (00_scope.md R15): the layers
(40_layers.md), the rounds and blocks (41_rounds.md), the padding codec and the ECB functions (42_ecb.md). The
permutation generator is an argument, so the laws of these functions hold for every conforming core (R9). -/

namespace Sys2Proof.Machine

/-! ## Substitution -/

/-- `swap_nibbles(b) = ((b AND 0x0F) << 4) OR (b >> 4)` (R90). -/
def swapNibbles (b : Byte) : Byte := ((b &&& 0x0F#8) <<< 4) ||| (b >>> 4)

/-- `subst_fwd(b, k)` (R91). -/
def substFwd (b k : Byte) : Byte := swapNibbles (b ^^^ k)

/-- `subst_inv(b, k)` (R91). -/
def substInv (b k : Byte) : Byte := swapNibbles b ^^^ k

/-- `subst_fwd` in every lane (R95, R104). -/
def substFwdBlock (x : Block) (k : Byte) : Block := Vector.ofFn fun i => substFwd x[i] k

/-- `subst_inv` in every lane (R96, R104). -/
def substInvBlock (x : Block) (k : Byte) : Block := Vector.ofFn fun i => substInv x[i] k

/-! ## Permutation (R93, R94, R97, R98) -/

/-- A sequence of 16 distinct indices, that is a bijection on {0..15} (R9, R13). -/
abbrev Perm.Bijective (p : Perm) : Prop := ∀ i j : Fin 16, p[i] = p[j] → i = j

/-- The sequence 0, 1, .., 15. -/
def identityPerm : Perm := Vector.ofFn id

/-- One step of the generator: `s = (1103515245 * s + 12345) mod 2^31` (R94). -/
def lcgStep (s : BitVec 31) : BitVec 31 := 1103515245#31 * s + 12345#31

/-- The loop of R94 for `i` down to 1, from state `s`: draw `j` in 0..i, swap entries `i` and `j`. -/
def fisherYates : (i : Nat) → i < 16 → BitVec 31 → Perm → Perm
  | 0, _, _, idx => idx
  | i + 1, hi, s, idx =>
    let s' := lcgStep s
    let j := (s' >>> 16).toNat % (i + 2)
    have hj : j < 16 := Nat.lt_of_lt_of_le (Nat.mod_lt _ (Nat.succ_pos _)) hi
    fisherYates i (Nat.lt_of_succ_lt hi) s' (idx.swap (i + 1) j)

/-- `DEFAULT_PERM_GEN` (R94). -/
def defaultPermGen (k : Byte) : Perm := fisherYates 15 (by decide) (k.setWidth 31) identityPerm

/-- `PERM_GEN(k)` (R9, R93). -/
def permOf (g : PermGen) (k : Byte) : Perm :=
  match g with
  | .lcgShuffle => defaultPermGen k
  | .table rows => rows[k.toNat]'k.isLt

/-- What R9 asks of a generator: every `PERM_GEN(k)` is a bijection on {0..15}. -/
def PermGen.Conforming (g : PermGen) : Prop := ∀ k : Byte, Perm.Bijective (permOf g k)

/-- The loop `for i in 0..15: Pinv[P[i]] = i` of R97 and R100. -/
def invertPerm (p : Perm) : Perm :=
  (List.finRange 16).foldl (fun q i => q.set p[i].val i p[i].isLt) (Vector.replicate 16 0)

/-- The block whose position `i` holds the byte at position `p[i]`: bytes are moved, none is changed (R97, R98). -/
def gather (x : Block) (p : Perm) : Block := Vector.ofFn fun i => x[p[i]]

/-- `perm_fwd(x, k)` (R97). -/
def permFwd (g : PermGen) (x : Block) (k : Byte) : Block := gather x (permOf g k)

/-- `perm_inv(y, k)` (R97): the permutation is made again from `k` (R39). -/
def permInv (g : PermGen) (y : Block) (k : Byte) : Block := gather y (invertPerm (permOf g k))

/-- The permutation contract for key byte `k` (R98): each of `perm_fwd` and `perm_inv` undoes the other on every block, and
neither changes the multiset of the 16 byte values. Every conforming generator meets it, for every `k`
(`permContract_of_bijective`). -/
def PermContract (g : PermGen) (k : Byte) : Prop :=
  ∀ x : Block, permInv g (permFwd g x k) k = x ∧ permFwd g (permInv g x k) k = x ∧
    (permFwd g x k).toList.Perm x.toList ∧ (permInv g x k).toList.Perm x.toList

/-! ## Key mixing -/

/-- `mix(x, k)` (R101). -/
def mix (x : Block) (k : Byte) : Block := Vector.ofFn fun i => x[i] ^^^ k

/-! ## Rounds and blocks -/

/-- `round_fwd(x, k)`: substitution, permutation, key mixing (R110). -/
def roundFwd (g : PermGen) (x : Block) (k : Byte) : Block := mix (permFwd g (substFwdBlock x k) k) k

/-- `round_inv(y, k)`: key mixing, inverse permutation, inverse substitution (R111). -/
def roundInv (g : PermGen) (y : Block) (k : Byte) : Block := substInvBlock (permInv g (mix y k) k) k

/-- `encrypt_block(x, K)`: rounds 0 to 15 (R113, R115). -/
def encryptBlock (g : PermGen) (x K : Block) : Block :=
  (List.finRange 16).foldl (fun x rnd => roundFwd g x K[rnd]) x

/-- `decrypt_block(y, K)`: rounds 15 down to 0 (R114, R115). -/
def decryptBlock (g : PermGen) (y K : Block) : Block :=
  (List.finRange 16).reverse.foldl (fun y rnd => roundInv g y K[rnd]) y

/-! ## Padding codec -/

/-- `pad_len(n) = 16 - (n mod 16)` (R130). -/
def padLen (n : Nat) : Nat := 16 - n % 16

/-- `pad(m)` (R130). -/
def pad (m : List Byte) : List Byte :=
  m ++ List.replicate (padLen m.length) (BitVec.ofNat 8 (padLen m.length))

/-- `unpad(s)`, `none` for `Fail` (R132). -/
def unpad (s : List Byte) : Option (List Byte) :=
  match s.getLast? with
  | none => none
  | some count =>
    if count = 0 ∨ count.toNat > 16 ∨ count.toNat > s.length then none
    else if (s.drop (s.length - count.toNat)).all (· == count) then some (s.take (s.length - count.toNat))
    else none

/-! ## ECB assembly -/

/-- The block of the first 16 bytes of a sequence (R53). It is applied to sequences of at least 16 bytes only
(`splitBlocks`), where no missing byte is asked for. -/
def blockOfBytes (s : List Byte) : Block := Vector.ofFn fun i => s.getD i.val 0

/-- `s[0..16)`, `s[16..32)`, .., `n` blocks in order (R53, R134). -/
def splitBlocks : (n : Nat) → List Byte → List Block
  | 0, _ => []
  | n + 1, s => blockOfBytes s :: splitBlocks n (s.drop 16)

/-- The bytes of the blocks, in order (R134). -/
def joinBlocks (bs : List Block) : List Byte := bs.flatMap Vector.toList

/-- `ecb_encrypt(m, K)` (R134). -/
def ecbEncrypt (g : PermGen) (m : List Byte) (K : Block) : List Byte :=
  joinBlocks ((splitBlocks ((pad m).length / 16) (pad m)).map fun b => encryptBlock g b K)

/-- `ecb_decrypt_raw(c, K)` (R134). -/
def ecbDecryptRaw (g : PermGen) (c : List Byte) (K : Block) : List Byte :=
  joinBlocks ((splitBlocks (c.length / 16) c).map fun b => decryptBlock g b K)

/-- `ecb_decrypt(c, K)` (R134). -/
def ecbDecrypt (g : PermGen) (c : List Byte) (K : Block) : Option (List Byte) := unpad (ecbDecryptRaw g c K)

end Sys2Proof.Machine
end

