-- ==== Sys2Proof/Machine/State.lean ====
section
/-! DEFINITION. The state of the machine: everything 10_state.md and 20_memory.md give the core, its implementation
parameters, and the host's coming and last accesses, all plain data. -/

namespace Sys2Proof.Machine

/-- Round order (10_state.md R38, `dir`). -/
inductive Direction where
  /-- 0: rounds 0 to 15. -/
  | forward
  /-- 1: rounds 15 to 0. -/
  | inverse
  deriving DecidableEq, Repr

/-- The three fields of `STATUS` (R33). The host reads and writes the register through `Status.word` and
`Status.update`; bits 31:3 hold nothing. -/
structure Status where
  /-- bit 0, read only -/
  busy : Bool
  /-- bit 1, sticky, write 1 to clear -/
  wign : Bool
  /-- bit 2, sticky, write 1 to clear -/
  cmdovr : Bool
  deriving DecidableEq, Repr

/-- The internal registers of the round scheduler and the ECB block assembler, in the reference organisation of R38
(`cur_cmd` stands in `State`). The host cannot read them, and no command reads what another left in them. -/
structure Scheduler where
  wblk : Block
  rnd : BitVec 5
  dir : Direction
  blkIdx : BitVec 12
  deriving DecidableEq, Repr

/-- `MEM` (20_memory.md R50) as the bytes written since power-up, at strictly rising addresses (`Memory.wf`). An
unlisted address has no value (R56, assumption 5). -/
abbrev Memory := List Host.Cell

/-- The size of a register-port access; only `w32` is accepted (R57). -/
inductive AccessWidth where
  | w8 | w16 | w32
  deriving DecidableEq, Repr

/-- One access by the host (R16): through the register port, at a byte offset from the register base (R21), or through
the memory port, one byte at a `MEM` address (R52). Addresses are unbounded naturals (R12): one that is not below
`MEM_BYTES` names no byte (assumption 6). -/
inductive Access where
  | regRead (offset : Nat) (width : AccessWidth)
  | regWrite (offset : Nat) (width : AccessWidth) (value : Word)
  | memRead (addr : Nat)
  | memWrite (addr : Nat) (value : Byte)
  deriving DecidableEq, Repr

/-- What may happen next (R16, R156, R170): an access by the host, a turn of the core, or a reset. -/
inductive Event where
  | host (a : Access)
  | coreTurn
  | reset
  deriving DecidableEq, Repr

/-- What the ports answered to the host's last access. -/
inductive Response where
  /-- no access since reset -/
  | nothing
  /-- a register read returned this word -/
  | word (v : Word)
  /-- a memory read returned this byte -/
  | byte (v : Byte)
  /-- a write was taken (acted on, ignored or dropped: the port answers alike) -/
  | taken
  /-- a bus error (R57) -/
  | busError
  deriving DecidableEq, Repr

/-- The machine. -/
structure State where
  /-- the implementation parameters (R8, R9); no step changes them (assumption 3) -/
  cfg : Config
  /-- `STATUS` (R33) -/
  status : Status
  /-- `ERR` (R34) -/
  err : BitVec 8
  /-- `KEY_LEN` (R25) -/
  keyLen : BitVec 8
  /-- `SRC` (R28) -/
  src : Addr
  /-- `DST` (R29) -/
  dst : Addr
  /-- `LEN` (R30) -/
  len : BitVec 16
  /-- `OUT_LEN` (R31) -/
  outLen : BitVec 17
  /-- `KEY` (R22) -/
  key : Block
  /-- `BLK` (R23) -/
  blk : Block
  /-- `MEM` (R50) -/
  mem : Memory
  /-- `cur_cmd` (R38): the accepted command word -/
  curCmd : Word
  /-- the other internal registers (R38) -/
  sched : Scheduler
  /-- the events still to come, first one first (assumption 1) -/
  inbox : List Event
  /-- the answer to the host's last access (assumption 12) -/
  resp : Response
  /-- how many free values have been drawn -/
  draws : Nat
  deriving DecidableEq, Repr

/-- Why the machine stops. Each is SAFE: the hardware goes on with values no rule fixes, so nothing is proved of it. -/
inductive Fault where
  /-- Raised by `UNPAD`, `PAD`, `ENC`, `DEC` and by a host memory read: the byte has not been written since power-up and
  has no value (R56, U4). Safe. -/
  | unwrittenRead
  /-- Raised by a host memory write to the source or destination range of the running message command, whose result the
  spec then leaves unspecified (R63, U5). Safe. -/
  | rangeWriteWhileBusy
  /-- Raised by a host memory access at or past `MEM_BYTES`, where `MEM` has no byte (R50, assumption 6). Safe. -/
  | noSuchAddress
  deriving DecidableEq, Repr

/-- No meaning. -/
inductive Refusal where
  /-- Raised by an arm of `exec` whose instruction has no meaning yet; no arm does. Safe. -/
  | notModelled (mnemonic : String)
  deriving DecidableEq, Repr

/-- The outcome of a command, an access or a step. -/
abbrev Result := Host.Outcome State Fault Refusal

/-- The internal registers after reset: unspecified by R44, zero here (assumption 11, DESIGN CHOICE). -/
def Scheduler.reset : Scheduler :=
  { wblk := Vector.replicate 16 0, rnd := 0, dir := .forward, blkIdx := 0 }

/-- A core with the given parameters right after power-up and reset (R44, R170): every register at its reset value, no
byte of `MEM` with a value (R56), no event to come. -/
def State.resetWith (cfg : Config) : State :=
  { cfg := cfg
    status := { busy := false, wign := false, cmdovr := false }
    err := 0
    keyLen := 0
    src := 0
    dst := 0
    len := 0
    outLen := 0
    key := Vector.replicate 16 0
    blk := Vector.replicate 16 0
    mem := []
    curCmd := 0
    sched := Scheduler.reset
    inbox := []
    resp := .nothing
    draws := 0 }

/-- The machine right after reset, with the spec's default parameters (R8, R9, R44). -/
def State.reset : State := State.resetWith Config.standard

end Sys2Proof.Machine
end

