-- ==== Sys2Proof/Machine/Flags.lean ====
section
/-! DEFINITION. The `STATUS` register (10_state.md R33, R42) and the error codes (60_exceptions.md R150): the only
flags the core has (R37). -/

namespace Sys2Proof.Machine

/-- What a command can fail with (R150). Codes 0x04 and 0x05 are reserved and never written (R152, R153). -/
inductive ErrCode where
  /-- `KEY_LEN != 16` -/
  | keyLength
  /-- `LEN = 0` or `LEN mod 16 != 0` -/
  | ctLength
  /-- `unpad` returns `Fail` -/
  | padding
  /-- the `CMD` word selects no row of R77 -/
  | illegalCmd
  /-- a range ends past `MEM_BYTES` -/
  | range
  /-- source and destination ranges partly overlap -/
  | overlap
  deriving DecidableEq, Repr

/-- The value of `ERR` (R150). -/
def ErrCode.code : ErrCode → BitVec 8
  | .keyLength => 0x01
  | .ctLength => 0x02
  | .padding => 0x03
  | .illegalCmd => 0x10
  | .range => 0x11
  | .overlap => 0x12

/-- `ERR_NONE` (R150). -/
def errNone : BitVec 8 := 0x00

/-- The values `ERR` may hold (R150: "No other value is ever written to `ERR`"). -/
def legalErr (v : BitVec 8) : Bool :=
  v == 0x00 || v == 0x01 || v == 0x02 || v == 0x03 || v == 0x10 || v == 0x11 || v == 0x12

/-- `STATUS` as the host reads it: bit 0 `BUSY`, bit 1 `WIGN`, bit 2 `CMDOVR`, the others 0 (R33). -/
def Status.word (st : Status) : Word :=
  0#29 ++ BitVec.ofBool st.cmdovr ++ BitVec.ofBool st.wign ++ BitVec.ofBool st.busy

/-- The sticky bits after a cycle that sets some of them and writes `clear` to `STATUS`: a 1 clears, a 0 leaves, and a
set wins over a clear of the same bit; `BUSY` ignores the write (R21, R33). -/
def Status.update (st : Status) (setWign setCmdovr : Bool) (clear : Word) : Status :=
  { busy := st.busy
    wign := setWign || (st.wign && !clear.getLsbD 1)
    cmdovr := setCmdovr || (st.cmdovr && !clear.getLsbD 2) }

end Sys2Proof.Machine
end

