-- ==== Sys2Proof/Machine/Operands.lean ====
section
/-! DEFINITION. The operands: the register map (10_state.md R21) and the packing of `KEY` and `BLK` into words (R24),
and the source and destination ranges of the message commands (42_ecb.md R135). -/

namespace Sys2Proof.Machine

/-- The registers of the map (R21). `keyWord w` is `KEY<w>`, `blkWord w` is `BLK<w>`. -/
inductive Reg where
  | id | cmd | status | err | keyLen | src | dst | len | outLen
  | keyWord (w : Fin 4)
  | blkWord (w : Fin 4)
  deriving DecidableEq, Repr

/-- The register at a byte offset (R21); none is mapped at any other offset. -/
def Reg.ofOffset : Nat → Option Reg
  | 0x00 => some .id
  | 0x04 => some .cmd
  | 0x08 => some .status
  | 0x0C => some .err
  | 0x10 => some .keyLen
  | 0x14 => some .src
  | 0x18 => some .dst
  | 0x1C => some .len
  | 0x20 => some .outLen
  | 0x40 => some (.keyWord 0)
  | 0x44 => some (.keyWord 1)
  | 0x48 => some (.keyWord 2)
  | 0x4C => some (.keyWord 3)
  | 0x50 => some (.blkWord 0)
  | 0x54 => some (.blkWord 1)
  | 0x58 => some (.blkWord 2)
  | 0x5C => some (.blkWord 3)
  | _ => none

/-- The byte offset of a register (R21). -/
def Reg.offset : Reg → Nat
  | .id => 0x00
  | .cmd => 0x04
  | .status => 0x08
  | .err => 0x0C
  | .keyLen => 0x10
  | .src => 0x14
  | .dst => 0x18
  | .len => 0x1C
  | .outLen => 0x20
  | .keyWord w => 0x40 + 4 * w.val
  | .blkWord w => 0x50 + 4 * w.val

/-- The bits a register uses (R21). -/
def Reg.usedBits : Reg → Word
  | .id => 0xFFFFFFFF
  | .cmd => 0xFFFFFFFF
  | .status => 0x00000007
  | .err => 0x000000FF
  | .keyLen => 0x000000FF
  | .src => 0x0000FFFF
  | .dst => 0x0000FFFF
  | .len => 0x0000FFFF
  | .outLen => 0x0001FFFF
  | .keyWord _ => 0xFFFFFFFF
  | .blkWord _ => 0xFFFFFFFF

/-- Whether a register has access "RW" (R21): the operands of the commands. -/
def Reg.isOperand : Reg → Bool
  | .keyLen => true
  | .src => true
  | .dst => true
  | .len => true
  | .keyWord _ => true
  | .blkWord _ => true
  | .id => false
  | .cmd => false
  | .status => false
  | .err => false
  | .outLen => false

/-- The value of `ID` (R35). -/
def idValue : Word := 0x49474331

/-- Word `w` of a 16-byte register: byte `4w` in bits 7:0, .., byte `4w+3` in bits 31:24 (R24). -/
def packWord (r : Block) (w : Fin 4) : Word :=
  r[4 * w.val + 3] ++ r[4 * w.val + 2] ++ r[4 * w.val + 1] ++ r[4 * w.val]

/-- A 16-byte register after a write of `v` to its word `w`: `R[4w+j] <- v[8j+7:8j]` (R24). -/
def unpackWord (r : Block) (w : Fin 4) (v : Word) : Block :=
  Vector.ofFn fun i => if i.val / 4 = w.val then v.extractLsb' (8 * (i.val % 4)) 8 else r[i]

/-- `16 * (n div 16 + 1)`, the length of a padded sequence of `n` bytes (R130, R135). -/
def paddedLen (n : Nat) : Nat := 16 * (n / 16 + 1)

/-- `in_len` and `dst_len` of a message command with `LEN = n` (R135); a command of another family has no ranges
(R51). -/
def messageLengths (n : Nat) : Instr → Option (Nat × Nat)
  | .pad => some (n, paddedLen n)
  | .enc => some (n, paddedLen n)
  | .unpad => some (n, n)
  | .dec => some (n, n)
  | .subf _ => none
  | .subi _ => none
  | .perf _ => none
  | .peri _ => none
  | .mix _ => none
  | .rndf _ => none
  | .rndi _ => none
  | .encb => none
  | .decb => none

/-- The addresses `[base, base + size)`, on unbounded naturals (R135). -/
structure MemRange where
  base : Nat
  size : Nat
  deriving DecidableEq, Repr

/-- Whether an address lies in a range. -/
def MemRange.has (r : MemRange) (a : Nat) : Bool := r.base ≤ a && a < r.base + r.size

/-- The source and the destination range of a message command (R135). -/
def messageRanges (i : Instr) (s : State) : Option (MemRange × MemRange) :=
  (messageLengths s.len.toNat i).map fun n => (⟨s.src.toNat, n.1⟩, ⟨s.dst.toNat, n.2⟩)

end Sys2Proof.Machine
end

