-- ==== Sys2Proof/Machine/Ops.lean ====
section
/-! DEFINITION. The shared operations: `MEM` and its byte sequences (20_memory.md), acceptance, completion and error
completion of a command (60_exceptions.md R155 to R157), and the checks the commands share (41_rounds.md R109,
42_ecb.md R136). -/

namespace Sys2Proof.Machine

/-! ## `MEM` -/

/-- The canonical form: addresses strictly rising. Every entry is a byte and an unlisted address has none, so no entry
equals what an unlisted address reads as. -/
abbrev Memory.wf (m : Memory) : Prop := m.Pairwise fun x y => x.1 < y.1

/-- The byte at an address; none where nothing has been written since power-up (R56). -/
def Memory.get : Memory → Nat → Option Byte
  | [], _ => none
  | (a, b) :: m, k => if k < a then none else if k = a then some b else Memory.get m k

/-- `MEM[k] <- v` (R59). -/
def Memory.set : Memory → Nat → Byte → Memory
  | [], k, v => [(k, v)]
  | (a, b) :: m, k, v =>
    if k < a then (k, v) :: (a, b) :: m
    else if k = a then (k, v) :: m
    else (a, b) :: Memory.set m k v

/-- The byte at `k` loses its value (used where R171 leaves no value to choose from, assumption 10). -/
def Memory.forget : Memory → Nat → Memory
  | [], _ => []
  | (a, b) :: m, k => if k = a then Memory.forget m k else (a, b) :: Memory.forget m k

/-- `MemRead(a, n)` (R14); none if one of the bytes has no value. -/
def Memory.readBytes (m : Memory) : Nat → Nat → Option (List Byte)
  | _, 0 => some []
  | a, n + 1 =>
    match Memory.get m a with
    | none => none
    | some b => (Memory.readBytes m (a + 1) n).map (b :: ·)

/-- `MemWrite(a, len(s), s)` (R14). -/
def Memory.writeBytes (m : Memory) : Nat → List Byte → Memory
  | _, [] => m
  | a, b :: s => Memory.writeBytes (Memory.set m a b) (a + 1) s

/-- The byte at `a` takes the value it has in `new`; it keeps its own if it has none there. -/
def Memory.copyByte (m new : Memory) (a : Nat) : Memory :=
  match Memory.get new a with
  | some b => Memory.set m a b
  | none => m

/-- Of the `n` bytes from `a`, those that `pick` names take their value in `new`, the others keep theirs (R171). -/
def Memory.mixBytes (m new : Memory) (pick : Nat → Bool) : Nat → Nat → Memory
  | _, 0 => m
  | a, n + 1 => Memory.mixBytes (if pick a then Memory.copyByte m new a else m) new pick (a + 1) n

/-- The `n` bytes from `a` lose their values. -/
def Memory.forgetBytes (m : Memory) : Nat → Nat → Memory
  | _, 0 => m
  | a, n + 1 => Memory.forgetBytes (Memory.forget m a) (a + 1) n

/-! ## Acceptance and completion -/

/-- Acceptance of the word `w` (R43, R155). -/
def State.accept (s : State) (w : Word) : State :=
  { s with curCmd := w, err := errNone, outLen := 0, status := { s.status with busy := true } }

/-- Completion without error: `BUSY <- 0`, while `ERR` keeps the 0 of acceptance (R14, R156; assumption 14). -/
def State.complete (s : State) : State :=
  { s with status := { s.status with busy := false } }

/-- Error completion, the core's analogue of trap entry: `ERR <- code`, `BUSY <- 0`, nothing else (R157). -/
def State.raise (s : State) (e : ErrCode) : State :=
  { s with err := e.code, status := { s.status with busy := false } }

/-! ## Register and memory writes of the commands -/

/-- `BLK <- x` (R23). -/
def State.setBlk (s : State) (x : Block) : State := { s with blk := x }

/-- The internal registers after a command that ran the scheduler (R38). -/
def State.setSched (s : State) (sc : Scheduler) : State := { s with sched := sc }

/-- `MemWrite(DST, len(bs), bs)` (R14). -/
def State.storeDst (s : State) (bs : List Byte) : State :=
  { s with mem := Memory.writeBytes s.mem s.dst.toNat bs }

/-- `OUT_LEN <- n` (R31). -/
def State.setOutLen (s : State) (n : Nat) : State := { s with outLen := BitVec.ofNat 17 n }

/-! ## Checks -/

/-- The key check of every command that uses the key, before anything else (R25, R109). -/
def withKeyCheck (s : State) (body : Result) : Result :=
  if s.keyLen = 16 then body else .next (s.raise .keyLength)

/-- The range check, then the overlap check (R136), on unbounded naturals (R135). -/
def rangeCheck (s : State) (inLen dstLen : Nat) : Option ErrCode :=
  let src := s.src.toNat
  let dst := s.dst.toNat
  if src + inLen > s.cfg.memBytes ∨ dst + dstLen > s.cfg.memBytes then some .range
  else if inLen > 0 ∧ dstLen > 0 ∧ src ≠ dst ∧ src < dst + dstLen ∧ dst < src + inLen then some .overlap
  else none

/-- The front of every message command: the checks of R136, then `MemRead(SRC, in_len)`, all of it before the command
writes anything; a byte without a value is the fault of R56. -/
def withSource (s : State) (inLen dstLen : Nat) (body : List Byte → Result) : Result :=
  match rangeCheck s inLen dstLen with
  | some e => .next (s.raise e)
  | none =>
    match Memory.readBytes s.mem s.src.toNat inLen with
    | none => .fault .unwrittenRead
    | some m => body m

end Sys2Proof.Machine
end

