-- ==== Sys2Proof/Machine/Layers.lean ====
section
/-! DEFINITION. The meanings of the layer commands (40_layers.md): they read `BLK` and the command word, write `BLK`,
and cannot fail (R105). `KEY_LEN` is not checked. -/

namespace Sys2Proof.Machine

/-- `SUBF` (R95). -/
def execSubf (kb : Byte) (s : State) : Result := .next (s.setBlk (substFwdBlock s.blk kb)).complete

/-- `SUBI` (R96). -/
def execSubi (kb : Byte) (s : State) : Result := .next (s.setBlk (substInvBlock s.blk kb)).complete

/-- `PERF` (R99). -/
def execPerf (kb : Byte) (s : State) : Result := .next (s.setBlk (permFwd s.cfg.permGen s.blk kb)).complete

/-- `PERI` (R100). -/
def execPeri (kb : Byte) (s : State) : Result := .next (s.setBlk (permInv s.cfg.permGen s.blk kb)).complete

/-- `MIX`, and `UNMIX` (R102, R103). -/
def execMix (kb : Byte) (s : State) : Result := .next (s.setBlk (mix s.blk kb)).complete

end Sys2Proof.Machine
end

