-- ==== Sys2Proof/Machine/Scheduler.lean ====
section
/-! DEFINITION. The round scheduler and the ECB block assembler in the reference organisation of 10_state.md R38 and
41_rounds.md R119: what their internal registers hold, step by step. The result of a command is given by the pure
functions of Machine/Cipher.lean (R117: "rules R110 and R113 govern"); that the scheduler computes the same is an
obligation. -/

namespace Sys2Proof.Machine

/-- `wblk <- x; dir <- d` (R119). -/
def Scheduler.load (sc : Scheduler) (x : Block) (d : Direction) : Scheduler := { sc with wblk := x, dir := d }

/-- Round `r` forward: `rnd <- r`, then the three steps on `wblk` with `KEY[r]` (R119). -/
def Scheduler.forwardRound (g : PermGen) (K : Block) (sc : Scheduler) (r : Fin 16) : Scheduler :=
  let sc := { sc with rnd := BitVec.ofNat 5 r.val }
  let sc := { sc with wblk := substFwdBlock sc.wblk K[r] }
  let sc := { sc with wblk := permFwd g sc.wblk K[r] }
  { sc with wblk := mix sc.wblk K[r] }

/-- Round `r` inverse: `mix`, `perm_inv`, `subst_inv` in that order (R119). -/
def Scheduler.inverseRound (g : PermGen) (K : Block) (sc : Scheduler) (r : Fin 16) : Scheduler :=
  let sc := { sc with rnd := BitVec.ofNat 5 r.val }
  let sc := { sc with wblk := mix sc.wblk K[r] }
  let sc := { sc with wblk := permInv g sc.wblk K[r] }
  { sc with wblk := substInvBlock sc.wblk K[r] }

/-- `wblk <- x; dir <- 0`; rounds 0 to 15 (R119). -/
def Scheduler.encrypt (g : PermGen) (K : Block) (sc : Scheduler) (x : Block) : Scheduler :=
  (List.finRange 16).foldl (Scheduler.forwardRound g K) (sc.load x .forward)

/-- `wblk <- y; dir <- 1`; rounds 15 down to 0 (R119). -/
def Scheduler.decrypt (g : PermGen) (K : Block) (sc : Scheduler) (y : Block) : Scheduler :=
  (List.finRange 16).reverse.foldl (Scheduler.inverseRound g K) (sc.load y .inverse)

/-- The ECB assembler: blocks `q`, `q + 1`, .. one at a time in ascending order (R146), each run through the scheduler
with `blk_idx <- q`; the output bytes and the internal registers left. -/
def Scheduler.assemble (run : Scheduler → Block → Scheduler) : Nat → List Block → Scheduler → List Byte × Scheduler
  | _, [], sc => ([], sc)
  | q, b :: bs, sc =>
    let sc' := run { sc with blkIdx := BitVec.ofNat 12 q } b
    let rest := Scheduler.assemble run (q + 1) bs sc'
    (sc'.wblk.toList ++ rest.1, rest.2)

/-- The assembler run over a sequence to encrypt, already padded (R134). -/
def Scheduler.encryptBytes (g : PermGen) (K : Block) (sc : Scheduler) (p : List Byte) : List Byte × Scheduler :=
  Scheduler.assemble (Scheduler.encrypt g K) 0 (splitBlocks (p.length / 16) p) sc

/-- The assembler run over a ciphertext (R134). -/
def Scheduler.decryptBytes (g : PermGen) (K : Block) (sc : Scheduler) (c : List Byte) : List Byte × Scheduler :=
  Scheduler.assemble (Scheduler.decrypt g K) 0 (splitBlocks (c.length / 16) c) sc

end Sys2Proof.Machine
end

