-- ==== Sys2Proof/Machine/Message.lean ====
section
/-! DEFINITION. The meanings of the padding and message commands (42_ecb.md): they read `MEM` in the source range and
write `MEM` in the destination range and `OUT_LEN`, and never `BLK` (R149). Each checks in the order its rule gives
(60_exceptions.md R154). -/

namespace Sys2Proof.Machine

/-- `PAD` (R137). -/
def execPad (s : State) : Result :=
  let dstLen := paddedLen s.len.toNat
  withSource s s.len.toNat dstLen fun m =>
    .next ((s.storeDst (pad m)).setOutLen dstLen).complete

/-- `UNPAD` (R139): on failure nothing is written (R140). -/
def execUnpad (s : State) : Result :=
  withSource s s.len.toNat s.len.toNat fun bs =>
    match unpad bs with
    | none => .next (s.raise .padding)
    | some u => .next ((s.storeDst u).setOutLen u.length).complete

/-- `ENC` (R141). -/
def execEnc (s : State) : Result :=
  withKeyCheck s <|
    let dstLen := paddedLen s.len.toNat
    withSource s s.len.toNat dstLen fun m =>
      .next (((s.storeDst (ecbEncrypt s.cfg.permGen m s.key)).setSched
        (s.sched.encryptBytes s.cfg.permGen s.key (pad m)).2).setOutLen dstLen).complete

/-- `DEC` (R143): all `LEN` decrypted bytes are written, then the padding is checked, so they stay when it is bad
(R144). -/
def execDec (s : State) : Result :=
  withKeyCheck s <|
    if s.len.toNat = 0 ∨ s.len.toNat % 16 ≠ 0 then .next (s.raise .ctLength)
    else
      withSource s s.len.toNat s.len.toNat fun c =>
        let p := ecbDecryptRaw s.cfg.permGen c s.key
        let s' := (s.storeDst p).setSched (s.sched.decryptBytes s.cfg.permGen s.key c).2
        match unpad p with
        | none => .next (s'.raise .padding)
        | some u => .next (s'.setOutLen u.length).complete

end Sys2Proof.Machine
end

