-- ==== Sys2Proof/Machine/Rounds.lean ====
section
/-! DEFINITION. The meanings of the round and block commands (41_rounds.md): they check `KEY_LEN`, read `KEY` and `BLK`
and write `BLK` (R120). The block commands leave the scheduler's internal registers as its last round does (R119,
assumption 13). -/

namespace Sys2Proof.Machine

/-- `RNDF` (R110). -/
def execRndf (ridx : Fin 16) (s : State) : Result :=
  withKeyCheck s (.next (s.setBlk (roundFwd s.cfg.permGen s.blk s.key[ridx])).complete)

/-- `RNDI` (R111). -/
def execRndi (ridx : Fin 16) (s : State) : Result :=
  withKeyCheck s (.next (s.setBlk (roundInv s.cfg.permGen s.blk s.key[ridx])).complete)

/-- `ENCB` (R113). -/
def execEncb (s : State) : Result :=
  withKeyCheck s (.next ((s.setBlk (encryptBlock s.cfg.permGen s.blk s.key)).setSched
    (s.sched.encrypt s.cfg.permGen s.key s.blk)).complete)

/-- `DECB` (R114). -/
def execDecb (s : State) : Result :=
  withKeyCheck s (.next ((s.setBlk (decryptBlock s.cfg.permGen s.blk s.key)).setSched
    (s.sched.decrypt s.cfg.permGen s.key s.blk)).complete)

end Sys2Proof.Machine
end

