-- ==== Sys2Proof/Machine/Dispatch.lean ====
section
/-! DEFINITION. Which meaning a command has: one arm per constructor of `Instr`. -/

namespace Sys2Proof.Machine

/-- The completion step of an accepted command (60_exceptions.md R156). -/
def exec (i : Instr) (s : State) : Host.Outcome State Fault Refusal :=
  match i with
  | .subf kb => Sys2Proof.Machine.execSubf kb s
  | .subi kb => Sys2Proof.Machine.execSubi kb s
  | .perf kb => Sys2Proof.Machine.execPerf kb s
  | .peri kb => Sys2Proof.Machine.execPeri kb s
  | .mix kb => Sys2Proof.Machine.execMix kb s
  | .rndf ridx => Sys2Proof.Machine.execRndf ridx s
  | .rndi ridx => Sys2Proof.Machine.execRndi ridx s
  | .encb => Sys2Proof.Machine.execEncb s
  | .decb => Sys2Proof.Machine.execDecb s
  | .pad => Sys2Proof.Machine.execPad s
  | .unpad => Sys2Proof.Machine.execUnpad s
  | .enc => Sys2Proof.Machine.execEnc s
  | .dec => Sys2Proof.Machine.execDec s

end Sys2Proof.Machine
end

