-- ==== Sys2Proof/Machine/HostPort.lean ====
section
/-! DEFINITION. What the two agents and the reset input do: the host's accesses through the register port
(10_state.md R21, R40 to R43) and the memory port (20_memory.md R52, R57 to R63), the core's turn
(60_exceptions.md R156), and reset (70_reset_and_hazards.md R170, R171). -/

namespace Sys2Proof.Machine

/-- The port answers the host's access. -/
def State.respond (s : State) (r : Response) : State := { s with resp := r }

/-- One free value has been used. -/
def State.drawn (s : State) : State := { s with draws := s.draws + 1 }

/-- The first event of the inbox has been taken. -/
def State.popInbox (s : State) : State := { s with inbox := s.inbox.tail }

/-! ## The register port -/

/-- The value of a register that is read, `BLK` while idle (R21, R24, R33, R41). -/
def State.regValue (s : State) : Reg → Word
  | .id => idValue
  | .cmd => 0
  | .status => s.status.word
  | .err => s.err.setWidth 32
  | .keyLen => s.keyLen.setWidth 32
  | .src => s.src.setWidth 32
  | .dst => s.dst.setWidth 32
  | .len => s.len.setWidth 32
  | .outLen => s.outLen.setWidth 32
  | .keyWord w => packWord s.key w
  | .blkWord w => packWord s.blk w

/-- A register read (R43, R59): while `BUSY = 1` a word of `BLK` is any value (U6), every other register reads its
value; no read has a side effect. -/
def readReg (s : State) (r : Reg) : State :=
  match r with
  | .blkWord w =>
    if s.status.busy then (s.respond (.word (Config.freeWord s.draws))).drawn
    else s.respond (.word (packWord s.blk w))
  | r => s.respond (.word (s.regValue r))

/-- A 32-bit register-port read at an offset that is a multiple of 4: unmapped offsets read 0 (R40). -/
def readOffset (s : State) (offset : Nat) : State :=
  match Reg.ofOffset offset with
  | none => s.respond (.word 0)
  | some r => readReg s r

/-- A write of an operand register while idle: the bits the register has are stored, the others ignored (R24, R41).
`ID`, `ERR` and `OUT_LEN` ignore writes (R40); `CMD` and `STATUS` are no operands. -/
def writeOperand (s : State) (r : Reg) (v : Word) : State :=
  match r with
  | .keyLen => { s with keyLen := v.setWidth 8 }
  | .src => { s with src := v.setWidth 16 }
  | .dst => { s with dst := v.setWidth 16 }
  | .len => { s with len := v.setWidth 16 }
  | .keyWord w => { s with key := unpackWord s.key w v }
  | .blkWord w => { s with blk := unpackWord s.blk w v }
  | .id | .cmd | .status | .err | .outLen => s

/-- A register write (R21, R32, R33, R40 to R42). -/
def writeReg (s : State) (r : Reg) (v : Word) : State :=
  match r with
  | .cmd =>
    if s.status.busy then { s with status := s.status.update false true 0 }
    else s.accept v
  | .status => { s with status := s.status.update false false v }
  | .id | .err | .outLen => s
  | .keyLen | .src | .dst | .len | .keyWord _ | .blkWord _ =>
    if s.status.busy then { s with status := s.status.update true false 0 }
    else writeOperand s r v

/-- A 32-bit register-port write at an offset that is a multiple of 4: unmapped offsets ignore it (R40). -/
def writeOffset (s : State) (offset : Nat) (v : Word) : State :=
  match Reg.ofOffset offset with
  | none => s
  | some r => writeReg s r v

/-- Only 32-bit accesses at multiples of 4 are accepted (R57). -/
def portAccepts (offset : Nat) (width : AccessWidth) : Bool := width == .w32 && offset % 4 == 0

/-! ## The memory port -/

/-- The ranges of the running message command (R63, R135): none while idle, and none while a layer, round or block
command or an illegal command runs. -/
def runningRanges (s : State) : Option (MemRange × MemRange) :=
  if s.status.busy then
    match decode s.curCmd with
    | .error _ => none
    | .ok i => messageRanges i s
  else none

/-- Whether `a` is in the destination range of the running message command (R63). -/
def inRunningDst (s : State) (a : Nat) : Bool :=
  match runningRanges s with
  | none => false
  | some (_, d) => d.has a

/-- Whether `a` is in the source or destination range of the running message command (R63). -/
def inRunningRange (s : State) (a : Nat) : Bool :=
  match runningRanges s with
  | none => false
  | some (r, d) => r.has a || d.has a

/-- A host read of one byte of `MEM` (R52, R56, R63). -/
def hostMemRead (s : State) (addr : Nat) : Result :=
  if addr ≥ s.cfg.memBytes then .fault .noSuchAddress
  else if inRunningDst s addr then .next (s.respond (.byte (Config.freeByte s.draws))).drawn
  else
    match Memory.get s.mem addr with
    | none => .fault .unwrittenRead
    | some b => .next (s.respond (.byte b))

/-- A host write of one byte of `MEM` (R52, R59, R63). -/
def hostMemWrite (s : State) (addr : Nat) (v : Byte) : Result :=
  if addr ≥ s.cfg.memBytes then .fault .noSuchAddress
  else if inRunningRange s addr then .fault .rangeWriteWhileBusy
  else .next ({ s with mem := Memory.set s.mem addr v }.respond .taken)

/-- One access by the host (R16). -/
def hostAccess (a : Access) (s : State) : Result :=
  match a with
  | .regRead offset width =>
    if portAccepts offset width then .next (readOffset s offset) else .next (s.respond .busError)
  | .regWrite offset width v =>
    if portAccepts offset width then .next ((writeOffset s offset v).respond .taken)
    else .next (s.respond .busError)
  | .memRead addr => hostMemRead s addr
  | .memWrite addr v => hostMemWrite s addr v

/-! ## The core's turn -/

/-- Completion of the accepted command (R156): an illegal command raises `ERR_ILLEGAL_CMD` before anything else
(R78, R154). -/
def completeCommand (s : State) : Result :=
  match decode s.curCmd with
  | .error _ => .next (s.raise .illegalCmd)
  | .ok i => exec i s

/-- A turn of the core: it completes the accepted command; between commands it does nothing (R62). -/
def coreTurn (s : State) : Result :=
  if s.status.busy then completeCommand s else .next s

/-! ## Reset -/

/-- `MEM` after a reset in state `s`: unchanged (R56, R170), except that each destination byte of a message command in
progress holds its old value or the value the command would have written, freely (R171, U10). Where the command would
have read a byte without a value, what it would have written has none either, and the destination bytes lose theirs
(assumption 10). -/
def memAfterReset (s : State) : Memory :=
  match runningRanges s with
  | none => s.mem
  | some (_, d) =>
    match completeCommand s with
    | .next t => Memory.mixBytes s.mem t.mem (Config.freePick s.draws) d.base d.size
    | .fault _ => Memory.forgetBytes s.mem d.base d.size
    | .refused _ => Memory.forgetBytes s.mem d.base d.size

/-- Reset (R170, R171): every register takes its reset value, the command in progress is abandoned. -/
def applyReset (s : State) : State :=
  { State.resetWith s.cfg with mem := memAfterReset s, inbox := s.inbox, draws := s.draws + 1 }

/-- What one event does, once it has been taken from the inbox. -/
def runEvent (e : Event) (s : State) : Result :=
  match e with
  | .host a => hostAccess a s
  | .coreTurn => coreTurn s
  | .reset => .next (applyReset s)

end Sys2Proof.Machine
end

