-- ==== Sys2Proof/Machine/Step.lean ====
section
/-! DEFINITION. One step of the machine (00_scope.md R16): the first event of the inbox, or, with none left, a turn of
the core (assumption 1). -/

namespace Sys2Proof.Machine

/-- One step. -/
def step (s : State) : Host.Outcome State Fault Refusal :=
  match s.inbox with
  | [] => coreTurn s
  | e :: _ => runEvent e s.popInbox

/-- `s` with the command word `w` accepted and the core's turn next, so that the very next step completes exactly that
command: what a host does that writes `w` to `CMD` (60_exceptions.md R155, assumption 2). -/
def State.withFetchWord (s : State) (nbits w : Nat) : State :=
  { s.accept (BitVec.ofNat 32 (w % 2 ^ nbits)) with inbox := .coreTurn :: s.inbox }

end Sys2Proof.Machine
end

