-- ==== Sys2Proof/Machine/HostProgram.lean ====
section
/-! DEFINITION. Host programs (30_encoding.md R82): the accesses each form makes, the loop of `WAIT`, and the run of a
program beside the core. -/

namespace Sys2Proof.Machine.HostProgram

/-! ## The forms without control flow, each as the accesses it makes -/

/-- `W <reg>, <value>`. -/
def w (r : Reg) (v : Word) : List Access := [.regWrite r.offset .w32 v]

/-- `R <reg>`. -/
def r (r : Reg) : List Access := [.regRead r.offset .w32]

/-- `C <command>`: the write of the command's word to `CMD`. -/
def c (i : Instr) : List Access := w .cmd (encode i)

/-- `MB <addr>, <b0> <b1> ...`: `MEM[addr+j]` on unbounded naturals (R12). -/
def mb : Nat → List Byte → List Access
  | _, [] => []
  | a, b :: bs => .memWrite a b :: mb (a + 1) bs

/-- `RB <addr>, <n>`. -/
def rb : Nat → Nat → List Access
  | _, 0 => []
  | a, n + 1 => .memRead a :: rb (a + 1) n

/-- `LDKEY k0 .. k15`: the four words of the key, then `KEY_LEN <- 16`. -/
def ldkey (k : Block) : List Access :=
  w (.keyWord 0) (packWord k 0) ++ w (.keyWord 1) (packWord k 1) ++ w (.keyWord 2) (packWord k 2) ++
    w (.keyWord 3) (packWord k 3) ++ w .keyLen 16

/-- `LDBLK b0 .. b15`. -/
def ldblk (b : Block) : List Access :=
  w (.blkWord 0) (packWord b 0) ++ w (.blkWord 1) (packWord b 1) ++ w (.blkWord 2) (packWord b 2) ++
    w (.blkWord 3) (packWord b 3)

/-- `RDBLK`. -/
def rdblk : List Access := r (.blkWord 0) ++ r (.blkWord 1) ++ r (.blkWord 2) ++ r (.blkWord 3)

/-- The events of a host that makes these accesses, with nothing between them. -/
def events (as : List Access) : List Event := as.map .host

/-! ## Programs and their runs

A program is the host's alone: the core's turns are no part of it, and come between its accesses as a list of turns says
(assumption 21). -/

/-- What a host program does next: an access, or the loop of `WAIT`. -/
inductive Op where
  | access (a : Access)
  | wait
  deriving DecidableEq, Repr

/-- The lines of these accesses. -/
def code (as : List Access) : List Op := as.map .access

/-- `WAIT`: the loop `loop: R STATUS; if bit 0 = 1 goto loop`. -/
def wait : List Op := [.wait]

/-- Whether an answer to `R STATUS` has bit 0 set, so that `WAIT` goes round again. -/
def loopsOn : Response → Bool
  | .word v => v.getLsbD 0
  | .nothing | .byte _ | .taken | .busError => false

/-- A host in the middle of its program, beside the core. -/
structure Running where
  /-- what the program has still to do; a `WAIT` stays first while it loops -/
  todo : List Op
  /-- what the program's accesses were answered, first one first; the reads of `WAIT` only steer its loop -/
  got : List Response
  /-- the machine -/
  core : State
  deriving DecidableEq, Repr

/-- What a turn leaves. -/
abbrev Played := Host.Outcome Running Fault Refusal

/-- What follows from the machine's next state; a fault and a refusal stay. -/
def Running.andThen (o : Result) (f : State → Running) : Played :=
  match o with
  | .next t => .next (f t)
  | .fault e => .fault e
  | .refused e => .refused e

/-- The host's turn: its next access; for `WAIT`, one round of the loop. A program that is done does nothing. -/
def hostMove (p : Running) : Played :=
  match p.todo with
  | [] => .next p
  | .access a :: rest =>
    Running.andThen (hostAccess a p.core) fun t => { todo := rest, got := p.got ++ [t.resp], core := t }
  | .wait :: rest =>
    Running.andThen (hostAccess (.regRead Reg.status.offset .w32) p.core) fun t =>
      { p with todo := if loopsOn t.resp then .wait :: rest else rest, core := t }

/-- The core's turn beside the host. -/
def coreMove (p : Running) : Played := Running.andThen (coreTurn p.core) fun t => { p with core := t }

/-- Whose turn it is. -/
inductive Turn where
  | host
  | core
  deriving DecidableEq, Repr

/-- One turn. -/
def move (t : Turn) (p : Running) : Played :=
  match t with
  | .host => hostMove p
  | .core => coreMove p

/-- The turns one after another, up to the first that stops. -/
def play : List Turn → Running → Played
  | [], p => .next p
  | t :: ts, p =>
    match move t p with
    | .next q => play ts q
    | .fault e => .fault e
    | .refused e => .refused e

/-- A host at the start of its program. -/
def start (ops : List Op) (s : State) : Running := { todo := ops, got := [], core := s }

/-! ## Accesses to `MEM` wider than a byte (20_memory.md R52, assumption 15)

A platform that has them makes them byte accesses, the byte at the lowest address the least significant. -/

/-- The bytes of a value, the least significant first. -/
def leBytes (n v : Nat) : List Byte := (List.range n).map fun j => BitVec.ofNat 8 (v / 256 ^ j)

/-- The value of bytes given the least significant first. -/
def leValue : List Byte → Nat
  | [] => 0
  | b :: bs => b.toNat + 256 * leValue bs

/-- A write of the `n` bytes of `v`. -/
def mbWide (a n v : Nat) : List Access := mb a (leBytes n v)

/-- A read of `n` bytes; the value read is `wideAnswer`. -/
def rbWide (a n : Nat) : List Access := rb a n

/-- What the ports answer after each of the next `n` steps; none if one of them stops. -/
def answers : Nat → State → Option (List Response)
  | 0, _ => some []
  | n + 1, s =>
    match step s with
    | .next t => (answers n t).map (t.resp :: ·)
    | .fault _ | .refused _ => none

/-- The bytes of answers that are all memory reads' answers. -/
def byteAnswers : List Response → Option (List Byte)
  | [] => some []
  | .byte b :: rs => (byteAnswers rs).map (b :: ·)
  | .nothing :: _ | .word _ :: _ | .taken :: _ | .busError :: _ => none

/-- The value a wide read of `n` bytes gives, its bytes being read in the next `n` steps: the bytes assembled, the one at
the lowest address the least significant. -/
def wideAnswer (n : Nat) (s : State) : Option Nat :=
  match answers n s with
  | none => none
  | some rs => (byteAnswers rs).map leValue

end Sys2Proof.Machine.HostProgram
end

