-- ==== Sys2Proof/Safety.lean ====
section
/-! DEFINITION. What counts as a legal core, a legal state and a safe run, in the terms the statements use. -/

namespace Sys2Proof

/-- A legal core (00_scope.md R8, R9): `MEM_BYTES` in 1..65536 and a generator of bijections. -/
structure Config.Legal (c : Config) : Prop where
  memBytes_pos : 1 ≤ c.memBytes
  memBytes_le : c.memBytes ≤ 65536
  conforming : Machine.PermGen.Conforming c.permGen

namespace Machine

/-- What every step keeps. -/
structure State.Inv (s : State) : Prop where
  /-- the parameters are legal (R8, R9) -/
  cfg_legal : s.cfg.Legal
  /-- `MEM` is in canonical form -/
  mem_wf : Memory.wf s.mem
  /-- `MEM` has bytes at `0 .. MEM_BYTES-1` only (R50) -/
  mem_inside : ∀ a b, Memory.get s.mem a = some b → a < s.cfg.memBytes
  /-- `ERR` holds a code of the table (R150) -/
  err_legal : legalErr s.err = true
  /-- while `BUSY = 1`, `ERR` and `OUT_LEN` are 0 (R43) -/
  busy_clear : s.status.busy = true → s.err = errNone ∧ s.outLen = 0
  /-- after a failed command `OUT_LEN` is 0 (R31, R160) -/
  failed_empty : s.err ≠ errNone → s.outLen = 0
  /-- `OUT_LEN` never exceeds `MEM_BYTES` (R31, R136) -/
  outLen_inside : s.outLen.toNat ≤ s.cfg.memBytes
  /-- the round counter is 0..15: R38 says so while a command runs, and elsewhere it is the model's choice
  (assumptions 11 and 13) -/
  rnd_legal : s.sched.rnd.toNat < 16

/-- Every byte of `[a, a + n)` has been written since power-up (R56, R174 item 4). -/
def State.Written (s : State) (a n : Nat) : Prop := ∀ j < n, (Memory.get s.mem (a + j)).isSome

/-- The ranges of R135 pass both checks of R136. -/
def State.RangesLegal (s : State) (inLen dstLen : Nat) : Prop :=
  s.src.toNat + inLen ≤ s.cfg.memBytes ∧ s.dst.toNat + dstLen ≤ s.cfg.memBytes ∧
    (inLen = 0 ∨ dstLen = 0 ∨ s.src = s.dst ∨ s.dst.toNat + dstLen ≤ s.src.toNat ∨ s.src.toNat + inLen ≤ s.dst.toNat)

/-- The range check of R136 fails. -/
def State.RangeBad (s : State) (inLen dstLen : Nat) : Prop :=
  s.src.toNat + inLen > s.cfg.memBytes ∨ s.dst.toNat + dstLen > s.cfg.memBytes

/-- The overlap check of R136 fails. -/
def State.OverlapBad (s : State) (inLen dstLen : Nat) : Prop :=
  inLen > 0 ∧ dstLen > 0 ∧ s.src ≠ s.dst ∧ s.src.toNat < s.dst.toNat + dstLen ∧ s.dst.toNat < s.src.toNat + inLen

/-- The command completes with the error code and changes nothing but `ERR` and `BUSY` (R157). -/
def State.FailsWith (s : State) (i : Instr) (code : BitVec 8) : Prop :=
  exec i s = .next { s with err := code, status := { s.status with busy := false } }

/-- What R136 asks of a command's ranges: it fails with `ERR_RANGE`, or else with `ERR_OVERLAP`. -/
def State.ChecksRanges (s : State) (i : Instr) (inLen dstLen : Nat) : Prop :=
  (s.RangeBad inLen dstLen → s.FailsWith i 0x11) ∧
    (¬s.RangeBad inLen dstLen → s.OverlapBad inLen dstLen → s.FailsWith i 0x12)

/-- `bs` stands in `MEM` at `[a, a + len(bs))` (R53). -/
def State.Holds (s : State) (a : Nat) (bs : List Byte) : Prop :=
  ∀ j (h : j < bs.length), Memory.get s.mem (a + j) = some bs[j]

/-- `MEM` reads the same in both states at every address outside `[a, a + n)`. -/
def State.SameMemOutside (s t : State) (a n : Nat) : Prop :=
  ∀ k, k < a ∨ a + n ≤ k → Memory.get t.mem k = Memory.get s.mem k

/-- Every register has the reset value of R44 (`ID` is read, the others are held). -/
structure State.HasResetValues (s : State) : Prop where
  status : s.status = { busy := false, wign := false, cmdovr := false }
  err : s.err = 0
  keyLen : s.keyLen = 0
  src : s.src = 0
  dst : s.dst = 0
  len : s.len = 0
  outLen : s.outLen = 0
  key : ∀ i : Fin 16, s.key[i] = 0
  blk : ∀ i : Fin 16, s.blk[i] = 0
  id : s.regValue .id = 0x49474331

/-- The coming event is a host write of `v` to register `r`. -/
def State.WritesReg (s : State) (r : Reg) (v : Word) : Prop :=
  ∃ rest, s.inbox = .host (.regWrite r.offset .w32 v) :: rest

/-- The coming event is a reset. -/
def State.ResetComes (s : State) : Prop := ∃ rest, s.inbox = .reset :: rest

/-- The coming step is the core's. -/
def State.CoreMoves (s : State) : Prop := s.inbox = [] ∨ ∃ rest, s.inbox = .coreTurn :: rest

/-- What `f` makes of the next state; a fault and a refusal stay. -/
def mapNext (f : State → State) : Result → Result
  | .next t => .next (f t)
  | .fault e => .fault e
  | .refused e => .refused e

/-- Commands completed one after another. -/
def execAll : List Instr → State → Result
  | [], s => .next s
  | i :: is, s =>
    match exec i s with
    | .next t => execAll is t
    | .fault e => .fault e
    | .refused e => .refused e

/-- A state up to the internal registers of R38; the accepted command counts only while it runs. -/
def State.hideInternal (s : State) : State :=
  { s with sched := Scheduler.reset, curCmd := if s.status.busy then s.curCmd else 0 }

/-- `c(k) = k[7:4] xor k[3:0]` (R117). -/
def nibbleSum (k : Byte) : BitVec 4 := k.extractLsb' 4 4 ^^^ k.extractLsb' 0 4

/-- `g_k(b) = swap_nibbles(b) xor {c(k), c(k)}` (R117). -/
def closedByteMap (k b : Byte) : Byte := swapNibbles b ^^^ (nibbleSum k ++ nibbleSum k)

/-- `C(K)`, the xor of `c` over the key (R117). -/
def keySum (K : Block) : BitVec 4 := (List.finRange 16).foldl (fun c r => c ^^^ nibbleSum K[r]) 0

/-- `pi_K(i) = P_K[0][P_K[1][ ... P_K[15][i] ... ]]` (R117). -/
def positionOf (g : PermGen) (K : Block) (i : Fin 16) : Fin 16 :=
  (List.finRange 16).foldr (fun r j => (permOf g K[r])[j]) i

/-- A run of `n` steps that neither faults nor is refused, and its last state. -/
def SafeRun (n : Nat) (s t : State) : Prop := core.run n s = .next t

end Machine

end Sys2Proof
end

