-- ==== Sys2Proof/Certificates/Slice0/Obligations.lean ====
section
/-! DEFINITION. The statements about the machine, from the numbered rules of the spec. In each, "`t = { s with .. }`"
is the frame: every register, flag and byte of `MEM` that the braces do not name is as it was. -/

open Sys2Proof
open Sys2Proof.Machine

/-! ## Reset -/

/-- R170, R35: the reset values, right after power-up and after a reset in any state, what reset leaves of `MEM`, and `ID`,
which reads the same constant in every state. -/
def Obligations.ResetGivesStatedValues : Prop :=
  (∀ cfg, (State.resetWith cfg).HasResetValues) ∧
  (∀ (s : State) rest, s.inbox = .reset :: rest →
    ∃ t, step s = .next t ∧ t.HasResetValues ∧ t.cfg = s.cfg ∧ t.inbox = rest ∧
      (runningRanges s = none → t.mem = s.mem)) ∧
  ∀ s : State, hostAccess (.regRead 0x00 .w32) s = .next { s with resp := .word 0x49474331 }

/-- R171: a reset during a message command abandons it; bytes outside its destination range keep their values, and each
byte inside holds its old value or the one the completed command would have given it. -/
def Obligations.ResetAbandonsRunningCommand : Prop :=
  ∀ (s : State) rest src dst, s.inbox = .reset :: rest → runningRanges s = some (src, dst) → Memory.wf s.mem →
    ∃ t, step s = .next t ∧ t.status.busy = false ∧ t.err = 0 ∧ (∀ i : Fin 16, t.blk[i] = 0) ∧
      (∀ a, dst.has a = false → Memory.get t.mem a = Memory.get s.mem a) ∧
      (∀ u, completeCommand { s with inbox := rest } = .next u →
        ∀ a, Memory.get t.mem a = Memory.get s.mem a ∨ Memory.get t.mem a = Memory.get u.mem a)

/-! ## Steps, acceptance and decoding -/

/-- R156: the core's step completes the decoded command, `exec` of it, at the state with its turn taken. -/
def Obligations.StepRunsDecodedCommand : Prop :=
  ∀ (s : State) i, s.status.busy = true → decode s.curCmd = .ok i →
    (s.inbox = [] → step s = exec i s) ∧
    (∀ rest, s.inbox = .coreTurn :: rest → step s = exec i { s with inbox := rest })

/-- R155, R32: a `CMD` write while idle accepts the word, whatever it is; while busy it is dropped, sets `CMDOVR` and leaves the
running command alone; `CMD` reads 0. -/
def Obligations.CmdWriteAcceptsOrSetsCmdovr : Prop :=
  ∀ (s : State) w,
    (s.status.busy = false → hostAccess (.regWrite 0x04 .w32 w) s =
      .next { s with curCmd := w, err := 0, outLen := 0, status := { s.status with busy := true }, resp := .taken }) ∧
    (s.status.busy = true → hostAccess (.regWrite 0x04 .w32 w) s =
      .next { s with status := { s.status with cmdovr := true }, resp := .taken }) ∧
    hostAccess (.regRead 0x04 .w32) s = .next { s with resp := .word 0 }

/-- R155, R156: a host that writes the word of a command to `CMD` while idle, then the core's turn: two steps run the
command on the state of acceptance. -/
def Obligations.CommandWriteThenCoreTurnRunsIt : Prop :=
  ∀ (s : State) i rest, s.status.busy = false → s.inbox = HostProgram.events (HostProgram.c i) ++ .coreTurn :: rest →
    core.run 2 s = exec i { s.accept (encode i) with resp := .taken, inbox := rest }

/-- R78: a word that selects no row of R77 is accepted, and completes with `ERR_ILLEGAL_CMD`, changing nothing else; every
unassigned `OP` and every non-zero reserved or unused field is such a word. -/
def Obligations.IllegalWordCompletesWithError : Prop :=
  (∀ w : Word,
    (fieldOp w ∉ [0x01, 0x02, 0x03, 0x04, 0x05, 0x08, 0x09, 0x10, 0x11, 0x20, 0x21, 0x22, 0x23] ∨
      fieldReservedHigh w ≠ 0 ∨ fieldReservedLow w ≠ 0 ∨
      (fieldRidx w ≠ 0 ∧ fieldOp w ≠ 0x08 ∧ fieldOp w ≠ 0x09) ∨
      (fieldKb w ≠ 0 ∧ fieldOp w ∉ [0x01, 0x02, 0x03, 0x04, 0x05])) ↔
    ∀ row ∈ opcodeTable, row.selects w = false) ∧
  ∀ (s : State) w rest, (∀ row ∈ opcodeTable, row.selects w = false) → s.status.busy = false →
    s.inbox = HostProgram.events (HostProgram.w .cmd w) ++ .coreTurn :: rest →
    core.run 2 s = .next { s with curCmd := w, err := 0x10, outLen := 0, resp := .taken, inbox := rest }

/-- R79: the decoder reads back the word of every command, with every operand at every value. -/
def Obligations.DecodeOfEncodeIsTheCommand : Prop := ∀ i : Instr, decode (encode i) = .ok i

/-- R71, R76: each command has one word: a word that decodes is the word of what it decodes to. -/
def Obligations.DecodedWordIsTheEncoding : Prop := ∀ (w : Word) i, decode w = .ok i → encode i = w

/-- R77: a word selects a row when `w AND mask = match`; the decoder gives the command of exactly that row, and no two rows
select the same word. -/
def Obligations.OpcodeMapIsTheDecoder : Prop :=
  (∀ (w : Word) n, (∃ i, decode w = .ok i ∧ i.mnemonic = n) ↔ ∃ row ∈ opcodeTable, row.mnemonic = n ∧ row.selects w = true) ∧
  (∀ w : Word, ∀ r₁ ∈ opcodeTable, ∀ r₂ ∈ opcodeTable, r₁.selects w = true → r₂.selects w = true → r₁ = r₂)

/-- R77, R80: words written out bit by bit from the patterns of R77 decode to the commands they stand for. -/
def Obligations.WordsFromTheSpecDecode : Prop :=
  decode 0b00000000001110100000000000000001#32 = .ok (.subf 0x3a) ∧
  decode 0b00000000111111110000000000000101#32 = .ok (.mix 0xff) ∧
  decode 0b00000000000000000000010100001000#32 = .ok (.rndf 5) ∧
  decode 0b00000000000000000000111100001001#32 = .ok (.rndi 15) ∧
  decode 0b00000000000000000000000000010000#32 = .ok .encb ∧
  decode 0b00000000000000000000000000100011#32 = .ok .dec ∧
  decode 0b00000000000000000000000000000000#32 = .error .unknownOp

/-- R80, R81: the assembler. An assembly error is any line but a name that takes `KB` with a number 0..255, one that takes
`RIDX` with a number 0..15, or one that takes no operand with none; each other line gives the command of its name and
number, `UNMIX k` the command `MIX k`; and the spec's example lines assemble to the words it prints. (How a line is spaced
is the model's choice, assumption 20.) -/
def Obligations.AssemblerFollowsItsSyntax : Prop :=
  (∀ l : AsmLine, l.assemble = none ↔ ¬(
    (l.name ∈ [Mnemonic.SUBF, .SUBI, .PERF, .PERI, .MIX, .UNMIX] ∧ ∃ k < 256, l.operand = some k) ∨
    (l.name ∈ [Mnemonic.RNDF, .RNDI] ∧ ∃ r < 16, l.operand = some r) ∨
    (l.name ∈ [Mnemonic.ENCB, .DECB, .PAD, .UNPAD, .ENC, .DEC] ∧ l.operand = none))) ∧
  (∀ kb : Byte, ∀ p ∈ [(Mnemonic.SUBF, Instr.subf kb), (.SUBI, .subi kb), (.PERF, .perf kb), (.PERI, .peri kb),
      (.MIX, .mix kb), (.UNMIX, .mix kb)], (AsmLine.mk p.1 (some kb.toNat)).assemble = some p.2) ∧
  (∀ r : Fin 16, ∀ p ∈ [(Mnemonic.RNDF, Instr.rndf r), (.RNDI, .rndi r)],
    (AsmLine.mk p.1 (some r.val)).assemble = some p.2) ∧
  (∀ p ∈ [(Mnemonic.ENCB, Instr.encb), (.DECB, .decb), (.PAD, .pad), (.UNPAD, .unpad), (.ENC, .enc), (.DEC, .dec)],
    (AsmLine.mk p.1 none).assemble = some p.2) ∧
  assembleLine "SUBF 0x3a".toList = some 0x003A0001 ∧
  assembleLine "RNDF 5".toList = some 0x00000508 ∧
  assembleLine "ENCB".toList = some 0x00000010 ∧
  assembleLine "DEC".toList = some 0x00000023 ∧
  (∀ kb : Byte, encode (.mix kb) = BitVec.ofNat 32 (kb.toNat * 2 ^ 16 + 5))

/-! ## The register port -/

/-- R24: a write of `v` to word `w` of `KEY` or `BLK` sets byte `4w+j` to `v[8j+7:8j]` and no other byte, and a read of it returns
the word with byte `4w+j` in bits `8j+7:8j`. -/
def Obligations.KeyAndBlkWordsAreLittleEndian : Prop :=
  (∀ (s : State) (w : Fin 4) v, s.status.busy = false →
    (∃ t, hostAccess (.regWrite (0x40 + 4 * w.val) .w32 v) s = .next t ∧
      t = { s with key := t.key, resp := .taken } ∧
      ∀ i : Fin 16, t.key[i] = if i.val / 4 = w.val then v.extractLsb' (8 * (i.val % 4)) 8 else s.key[i]) ∧
    (∃ t, hostAccess (.regWrite (0x50 + 4 * w.val) .w32 v) s = .next t ∧
      t = { s with blk := t.blk, resp := .taken } ∧
      ∀ i : Fin 16, t.blk[i] = if i.val / 4 = w.val then v.extractLsb' (8 * (i.val % 4)) 8 else s.blk[i])) ∧
  (∀ (s : State) (w : Fin 4), s.status.busy = false →
    (∃ v, hostAccess (.regRead (0x40 + 4 * w.val) .w32) s = .next { s with resp := .word v } ∧
      ∀ i : Fin 16, i.val / 4 = w.val → v.extractLsb' (8 * (i.val % 4)) 8 = s.key[i]) ∧
    (∃ v, hostAccess (.regRead (0x50 + 4 * w.val) .w32) s = .next { s with resp := .word v } ∧
      ∀ i : Fin 16, i.val / 4 = w.val → v.extractLsb' (8 * (i.val % 4)) 8 = s.blk[i]))

/-- R41: bits a register does not use read 0 and writes to them are ignored: an operand register written while idle then
reads the used bits of the value, and no other register changes. -/
def Obligations.UnusedBitsReadZeroAndIgnoreWrites : Prop :=
  (∀ (s : State) (r : Reg), ∃ t v, hostAccess (.regRead r.offset .w32) s = .next t ∧ t.resp = .word v ∧
    v &&& r.usedBits = v) ∧
  (∀ (s : State) (r : Reg) v, r.isOperand = true → s.status.busy = false →
    ∃ t, hostAccess (.regWrite r.offset .w32 v) s = .next t ∧ t.regValue r = v &&& r.usedBits ∧
      (∀ r', r' ≠ r → t.regValue r' = s.regValue r') ∧
      t = { s with keyLen := t.keyLen, src := t.src, dst := t.dst, len := t.len, key := t.key, blk := t.blk,
                   resp := .taken })

/-- R42: while `BUSY = 1` a write of an operand register has no effect and sets `WIGN`; a `CMD` write sets `CMDOVR` (R32); a
`STATUS` write acts as W1C. -/
def Obligations.BusyWritesAreDropped : Prop :=
  ∀ (s : State) v, s.status.busy = true →
    (∀ r : Reg, r.isOperand = true → hostAccess (.regWrite r.offset .w32 v) s =
      .next { s with status := { s.status with wign := true }, resp := .taken }) ∧
    hostAccess (.regWrite 0x04 .w32 v) s = .next { s with status := { s.status with cmdovr := true }, resp := .taken } ∧
    hostAccess (.regWrite 0x08 .w32 v) s = .next { s with
      status := { busy := true, wign := s.status.wign && !v.getLsbD 1, cmdovr := s.status.cmdovr && !v.getLsbD 2 },
      resp := .taken }

/-- R33: `STATUS` word and access. The three fields and the zero bits above them; W1C whether or not `BUSY = 1`; a set wins
over a clear; `BUSY` is 1 from acceptance until the core's turn or reset; `WIGN` and `CMDOVR` are set only by a dropped write and cleared only by a write of 1 or by reset; no command
reads `STATUS`. -/
def Obligations.StatusFieldsFollowTheirRules : Prop :=
  (∀ (s : State) n, (s.regValue .status).getLsbD n =
    if n = 0 then s.status.busy else if n = 1 then s.status.wign else if n = 2 then s.status.cmdovr else false) ∧
  (∀ (s : State) v, hostAccess (.regWrite 0x08 .w32 v) s = .next { s with
    status := { s.status with wign := s.status.wign && !v.getLsbD 1, cmdovr := s.status.cmdovr && !v.getLsbD 2 },
    resp := .taken }) ∧
  (∀ (st : Status) v, st.update true true v = { st with wign := true, cmdovr := true }) ∧
  (∀ s t : State, step s = .next t →
    (s.status.busy = false → t.status.busy = true → ∃ v, s.WritesReg .cmd v) ∧
    (s.status.busy = true → (t.status.busy = false ↔ s.ResetComes ∨ s.CoreMoves)) ∧
    (s.status.wign = false → t.status.wign = true →
      s.status.busy = true ∧ ∃ r v, r.isOperand = true ∧ s.WritesReg r v) ∧
    (s.status.wign = true → t.status.wign = false → s.ResetComes ∨ ∃ v, v.getLsbD 1 = true ∧ s.WritesReg .status v) ∧
    (s.status.cmdovr = false → t.status.cmdovr = true → s.status.busy = true ∧ ∃ v, s.WritesReg .cmd v) ∧
    (s.status.cmdovr = true → t.status.cmdovr = false →
      s.ResetComes ∨ ∃ v, v.getLsbD 2 = true ∧ s.WritesReg .status v)) ∧
  (∀ i (s : State) st, exec i { s with status := st } =
    mapNext (fun t => { t with status := { st with busy := false } }) (exec i s))

/-- R59, R41, R43: reading a register or a byte of `MEM` has no side effect: only the port's answer, and the model's own draw
counter, change; and while `BUSY = 0` a register reads its value. -/
def Obligations.ReadsHaveNoSideEffect : Prop :=
  (∀ (s t : State) offset width, hostAccess (.regRead offset width) s = .next t →
    t = { s with resp := t.resp, draws := t.draws }) ∧
  (∀ (s t : State) addr, hostAccess (.memRead addr) s = .next t → t = { s with resp := t.resp, draws := t.draws }) ∧
  (∀ (s : State) (r : Reg), s.status.busy = false →
    hostAccess (.regRead r.offset .w32) s = .next { s with resp := .word (s.regValue r) })

/-- R40: an unmapped offset reads 0; a write to one, to `ID`, to `ERR` or to `OUT_LEN` has no effect and sets no flag. -/
def Obligations.UnmappedAndReadOnlyOffsets : Prop :=
  (∀ (s : State) offset v, offset % 4 = 0 → (∀ r : Reg, r.offset ≠ offset) →
    hostAccess (.regRead offset .w32) s = .next { s with resp := .word 0 } ∧
    hostAccess (.regWrite offset .w32 v) s = .next { s with resp := .taken }) ∧
  (∀ (s : State) v, ∀ r ∈ [Reg.id, Reg.err, Reg.outLen],
    hostAccess (.regWrite r.offset .w32 v) s = .next { s with resp := .taken })

/-- R57: an access that is not 32 bits wide, or not at a multiple of 4, gets a bus error and has no effect, even at the
offset of `CMD`. -/
def Obligations.OddAccessesGetABusError : Prop :=
  ∀ (s : State) offset width v, width ≠ .w32 ∨ offset % 4 ≠ 0 →
    hostAccess (.regRead offset width) s = .next { s with resp := .busError } ∧
    hostAccess (.regWrite offset width v) s = .next { s with resp := .busError }

/-- R43: acceptance clears `ERR` and `OUT_LEN` and sets `BUSY` in one cycle; while `BUSY = 1`, `ERR` and `OUT_LEN` read 0, a
word of `BLK` reads a free value, and every other register reads its current value. The premise is the invariant that
states no run reaches may break (`Obligations.EveryStepKeepsTheInvariant`). -/
def Obligations.ReadsWhileBusy : Prop :=
  (∀ (s : State) w, s.status.busy = false → ∃ t, hostAccess (.regWrite 0x04 .w32 w) s = .next t ∧
    t.err = 0 ∧ t.outLen = 0 ∧ t.status.busy = true) ∧
  (∀ s : State, s.Inv → s.status.busy = true →
    hostAccess (.regRead 0x0C .w32) s = .next { s with resp := .word 0 } ∧
    hostAccess (.regRead 0x20 .w32) s = .next { s with resp := .word 0 } ∧
    (∀ w : Fin 4, hostAccess (.regRead (0x50 + 4 * w.val) .w32) s =
      .next { s with resp := .word (Config.freeWord s.draws), draws := s.draws + 1 }) ∧
    (∀ r ∈ [Reg.id, .status, .keyLen, .src, .dst, .len, .keyWord 0, .keyWord 1, .keyWord 2, .keyWord 3],
      hostAccess (.regRead r.offset .w32) s = .next { s with resp := .word (s.regValue r) }))

/-! ## The memory port -/

/-- R50, R56, R59: outside the ranges of a running message command `MEM` is ordinary memory: a write sets its byte and no
other, the byte is read back, and a byte never written since power-up, as every byte is right after it, has no value to read (assumption 5). An access
at an address `MEM` does not have is a fault (assumption 6), so addresses never wrap (R12). -/
def Obligations.MemIsOrdinaryMemory : Prop :=
  (∀ cfg a, Memory.get (State.resetWith cfg).mem a = none) ∧
  (∀ (s : State) (a : Nat) v, a < s.cfg.memBytes → inRunningRange s a = false →
    (∃ t, hostAccess (.memWrite a v) s = .next t ∧ t = { s with mem := t.mem, resp := .taken } ∧
      (∀ k, Memory.get t.mem k = if k = a then some v else Memory.get s.mem k) ∧
      hostAccess (.memRead a) t = .next { t with resp := .byte v }) ∧
    (Memory.get s.mem a = none → hostAccess (.memRead a) s = .fault .unwrittenRead)) ∧
  (∀ (s : State) (a : Nat) v, s.cfg.memBytes ≤ a →
    hostAccess (.memRead a) s = .fault .noSuchAddress ∧ hostAccess (.memWrite a v) s = .fault .noSuchAddress)

/-- R52: accesses to `MEM` wider than a byte are little-endian. While idle, a wide write of `v` sets the byte at `a+j` to bits
`8j+7:8j` of `v`, and no other byte; a wide read gives the value with the byte at `a+j` in bits `8j+7:8j`. (That such an
access is byte accesses one after another is the model's choice, assumption 15.) -/
def Obligations.WideMemAccessesAreLittleEndian : Prop :=
  (∀ (s : State) a n v rest, s.status.busy = false → a + n ≤ s.cfg.memBytes →
    s.inbox = HostProgram.events (HostProgram.mbWide a n v) ++ rest →
    ∃ t, core.run n s = .next t ∧ t = { s with mem := t.mem, resp := t.resp, inbox := rest } ∧
      ∀ k, Memory.get t.mem k =
        if a ≤ k ∧ k < a + n then some (BitVec.ofNat 8 (v / 2 ^ (8 * (k - a)))) else Memory.get s.mem k) ∧
  (∀ (s : State) a bs rest, s.status.busy = false → a + bs.length ≤ s.cfg.memBytes → s.Holds a bs →
    s.inbox = HostProgram.events (HostProgram.rbWide a bs.length) ++ rest →
    ∃ v, HostProgram.wideAnswer bs.length s = some v ∧ v < 2 ^ (8 * bs.length) ∧
      ∀ j (h : j < bs.length), BitVec.ofNat 8 (v / 2 ^ (8 * j)) = bs[j])

/-- R63: while a message command runs, a read of its destination range is a free value, a write to either range is a fault,
and any other access is as when idle: a read outside the destination range, a write outside both. While any other command
runs, access is unrestricted. -/
def Obligations.MemHazardsWhileBusy : Prop :=
  (∀ (s : State) src dst (a : Nat) v, runningRanges s = some (src, dst) → a < s.cfg.memBytes →
    (dst.has a = true → hostAccess (.memRead a) s =
      .next { s with resp := .byte (Config.freeByte s.draws), draws := s.draws + 1 }) ∧
    (src.has a = true ∨ dst.has a = true →
      hostAccess (.memWrite a v) s = .fault .rangeWriteWhileBusy)) ∧
  (∀ (s : State) (a : Nat) v,
    let idle := { s with status := { s.status with busy := false } }
    ((∀ src dst, runningRanges s = some (src, dst) → dst.has a = false) →
      hostAccess (.memRead a) s = mapNext (fun t => { t with status := s.status }) (hostAccess (.memRead a) idle)) ∧
    ((∀ src dst, runningRanges s = some (src, dst) → src.has a = false ∧ dst.has a = false) →
      hostAccess (.memWrite a v) s =
        mapNext (fun t => { t with status := s.status }) (hostAccess (.memWrite a v) idle))) ∧
  (∀ (s : State) i, s.status.busy = true → decode s.curCmd = .ok i →
    (runningRanges s = none ↔ i ≠ .pad ∧ i ≠ .unpad ∧ i ≠ .enc ∧ i ≠ .dec))

/-- R56: a message command whose checks pass and that reads a byte never written since power-up is a fault. -/
def Obligations.UnwrittenSourceByteIsAFault : Prop :=
  ∀ (s : State), ¬s.Written s.src.toNat s.len.toNat →
    (s.RangesLegal s.len.toNat (paddedLen s.len.toNat) → exec .pad s = .fault .unwrittenRead ∧
      (s.keyLen = 16 → exec .enc s = .fault .unwrittenRead)) ∧
    (s.RangesLegal s.len.toNat s.len.toNat → exec .unpad s = .fault .unwrittenRead ∧
      (s.keyLen = 16 → s.len.toNat ≠ 0 → s.len.toNat % 16 = 0 → exec .dec s = .fault .unwrittenRead))

/-! ## Layer commands -/

/-- R95: `SUBF` completes in every state: each lane of `BLK` becomes `{bl xor kl, bh xor kh}`, and only `BLK` and `BUSY`
change. -/
def Obligations.SubfSubstitutesEveryLane : Prop :=
  ∀ (k : Byte) (s : State), ∃ t, exec (.subf k) s = .next t ∧
    t = { s with blk := t.blk, status := { s.status with busy := false } } ∧
    ∀ i : Fin 16, t.blk[i] =
      (s.blk[i].extractLsb' 0 4 ^^^ k.extractLsb' 0 4) ++ (s.blk[i].extractLsb' 4 4 ^^^ k.extractLsb' 4 4)

/-- R96: `SUBI` completes in every state: each lane of `BLK` becomes `{bl xor kh, bh xor kl}`, and only `BLK` and `BUSY`
change. -/
def Obligations.SubiSubstitutesBackEveryLane : Prop :=
  ∀ (k : Byte) (s : State), ∃ t, exec (.subi k) s = .next t ∧
    t = { s with blk := t.blk, status := { s.status with busy := false } } ∧
    ∀ i : Fin 16, t.blk[i] =
      (s.blk[i].extractLsb' 0 4 ^^^ k.extractLsb' 4 4) ++ (s.blk[i].extractLsb' 4 4 ^^^ k.extractLsb' 0 4)

/-- R99: `PERF` completes in every state: lane `i` of `BLK` becomes the old lane `P[i]`, and only `BLK` and `BUSY` change; a
block of 16 equal bytes is unchanged. -/
def Obligations.PerfMovesLanes : Prop :=
  ∀ (k : Byte) (s : State), ∃ t, exec (.perf k) s = .next t ∧
    t = { s with blk := t.blk, status := { s.status with busy := false } } ∧
    (∀ i : Fin 16, t.blk[i] = s.blk[(permOf s.cfg.permGen k)[i]]) ∧
    ((∀ i j : Fin 16, s.blk[i] = s.blk[j]) → t.blk = s.blk)

/-- R100: `PERI` completes in every state: with a generator of bijections, the old lane `i` goes to lane `P[i]` of `BLK`, and
only `BLK` and `BUSY` change. -/
def Obligations.PeriMovesLanesBack : Prop :=
  ∀ (k : Byte) (s : State), ∃ t, exec (.peri k) s = .next t ∧
    t = { s with blk := t.blk, status := { s.status with busy := false } } ∧
    (Perm.Bijective (permOf s.cfg.permGen k) → ∀ i : Fin 16, t.blk[(permOf s.cfg.permGen k)[i]] = s.blk[i])

/-- R102: `MIX` completes in every state: each lane of `BLK` is xored with the key byte, and only `BLK` and `BUSY` change. -/
def Obligations.MixXorsEveryLane : Prop :=
  ∀ (k : Byte) (s : State), ∃ t, exec (.mix k) s = .next t ∧
    t = { s with blk := t.blk, status := { s.status with busy := false } } ∧
    ∀ i : Fin 16, t.blk[i] = s.blk[i] ^^^ k

/-- R91, R101: `SUBF k` and `SUBI k`, in either order, and `MIX k` twice leave `BLK` unchanged, for every key byte and block. -/
def Obligations.LayerInversesRestoreBlk : Prop :=
  ∀ (k : Byte) (s : State),
    (∃ t, execAll [.subf k, .subi k] s = .next t ∧ t.blk = s.blk) ∧
    (∃ t, execAll [.subi k, .subf k] s = .next t ∧ t.blk = s.blk) ∧
    (∃ t, execAll [.mix k, .mix k] s = .next t ∧ t.blk = s.blk)

/-- R98: with a generator that meets R93, `PERF k` and `PERI k`, in either order, leave `BLK` unchanged, and each of them keeps
the multiset of its 16 bytes. -/
def Obligations.PermutationContract : Prop :=
  ∀ (k : Byte) (s : State), Perm.Bijective (permOf s.cfg.permGen k) →
    (∃ t, execAll [.perf k, .peri k] s = .next t ∧ t.blk = s.blk) ∧
    (∃ t, execAll [.peri k, .perf k] s = .next t ∧ t.blk = s.blk) ∧
    (∃ t, exec (.perf k) s = .next t ∧ t.blk.toList.Perm s.blk.toList) ∧
    (∃ t, exec (.peri k) s = .next t ∧ t.blk.toList.Perm s.blk.toList)

/-- R94: the default generator gives a bijection for every key byte, and the permutation the rule prints for `0x00`. -/
def Obligations.DefaultGeneratorGivesBijections : Prop :=
  (∀ k : Byte, Perm.Bijective (defaultPermGen k)) ∧
  defaultPermGen 0x00 = #v[15, 1, 8, 10, 7, 11, 14, 2, 12, 5, 9, 13, 4, 6, 3, 0]

/-! ## Round and block commands -/

/-- R109: with `KEY_LEN` not 16, every command that reads `KEY` completes with `ERR_KEY_LENGTH` and changes nothing else. -/
def Obligations.KeyLengthIsCheckedFirst : Prop :=
  ∀ (s : State) i, s.keyLen ≠ 16 →
    (∃ r, i = .rndf r ∨ i = .rndi r) ∨ i = .encb ∨ i = .decb ∨ i = .enc ∨ i = .dec → s.FailsWith i 0x01

/-- R110: with `KEY_LEN = 16`, `RNDF r` gives the block that `SUBF`, `PERF`, `MIX` with key byte `KEY[r]` give one after
another, and only `BLK` and `BUSY` change; with any other `KEY_LEN`, `ERR_KEY_LENGTH` and `BLK` unchanged. -/
def Obligations.RndfIsTheThreeLayers : Prop :=
  ∀ (r : Fin 16) (s : State),
    (s.keyLen ≠ 16 → s.FailsWith (.rndf r) 0x01) ∧
    (s.keyLen = 16 →
      ∃ t u, exec (.rndf r) s = .next t ∧ execAll [.subf s.key[r], .perf s.key[r], .mix s.key[r]] s = .next u ∧
        t = { s with blk := u.blk, status := { s.status with busy := false } })

/-- R111: with `KEY_LEN = 16`, `RNDI r` gives the block that `MIX`, `PERI`, `SUBI` with key byte `KEY[r]` give one after
another, and only `BLK` and `BUSY` change; with any other `KEY_LEN`, `ERR_KEY_LENGTH` and `BLK` unchanged. -/
def Obligations.RndiIsTheThreeLayersReversed : Prop :=
  ∀ (r : Fin 16) (s : State),
    (s.keyLen ≠ 16 → s.FailsWith (.rndi r) 0x01) ∧
    (s.keyLen = 16 →
      ∃ t u, exec (.rndi r) s = .next t ∧ execAll [.mix s.key[r], .peri s.key[r], .subi s.key[r]] s = .next u ∧
        t = { s with blk := u.blk, status := { s.status with busy := false } })

/-- R112: a round and its inverse, in either order, leave `BLK` unchanged, for every block, key and round index. -/
def Obligations.RoundInversesRestoreBlk : Prop :=
  ∀ (r : Fin 16) (s : State), s.keyLen = 16 → PermGen.Conforming s.cfg.permGen →
    (∃ t, execAll [.rndf r, .rndi r] s = .next t ∧ t.blk = s.blk) ∧
    (∃ t, execAll [.rndi r, .rndf r] s = .next t ∧ t.blk = s.blk)

/-- R113: with `KEY_LEN = 16`, `ENCB` gives the block that `RNDF 0`, `RNDF 1`, .., `RNDF 15` give one after another; only `BLK`,
`BUSY` and internal registers change; with any other `KEY_LEN`, `ERR_KEY_LENGTH` and `BLK` unchanged. -/
def Obligations.EncbIsSixteenForwardRounds : Prop :=
  ∀ s : State,
    (s.keyLen ≠ 16 → s.FailsWith .encb 0x01) ∧
    (s.keyLen = 16 →
      ∃ t u, exec .encb s = .next t ∧ execAll ((List.finRange 16).map .rndf) s = .next u ∧
        t = { s with blk := u.blk, sched := t.sched, status := { s.status with busy := false } })

/-- R114: with `KEY_LEN = 16`, `DECB` gives the block that `RNDI 15`, `RNDI 14`, .., `RNDI 0` give one after another; only `BLK`,
`BUSY` and internal registers change; with any other `KEY_LEN`, `ERR_KEY_LENGTH` and `BLK` unchanged. -/
def Obligations.DecbIsSixteenInverseRounds : Prop :=
  ∀ s : State,
    (s.keyLen ≠ 16 → s.FailsWith .decb 0x01) ∧
    (s.keyLen = 16 →
      ∃ t u, exec .decb s = .next t ∧ execAll ((List.finRange 16).reverse.map .rndi) s = .next u ∧
        t = { s with blk := u.blk, sched := t.sched, status := { s.status with busy := false } })

/-- R116: decrypting an encrypted block gives the block back, and the other way round, for every block, every key and every
conforming generator. -/
def Obligations.BlockRoundTrip : Prop :=
  ∀ s : State, s.keyLen = 16 → PermGen.Conforming s.cfg.permGen →
    (∃ t, execAll [.encb, .decb] s = .next t ∧ t.blk = s.blk) ∧
    (∃ t, execAll [.decb, .encb] s = .next t ∧ t.blk = s.blk)

/-- R117: the closed form of a round, of two byte maps, and of the block commands: every output byte is one input byte, moved by
`pi_K` and xored with `{C(K), C(K)}`; and what `C(K)` and `pi_K` are for the key `00 01 .. 0f`. -/
def Obligations.BlockClosedForm : Prop :=
  (∀ (g : PermGen) (x : Block) (k : Byte) (i : Fin 16), (roundFwd g x k)[i] = closedByteMap k x[(permOf g k)[i]]) ∧
  (∀ k₁ k₂ b : Byte, closedByteMap k₂ (closedByteMap k₁ b) =
    b ^^^ ((nibbleSum k₁ ^^^ nibbleSum k₂) ++ (nibbleSum k₁ ^^^ nibbleSum k₂))) ∧
  (∀ s : State, s.keyLen = 16 → ∃ t, exec .encb s = .next t ∧
    ∀ i : Fin 16, t.blk[i] = s.blk[positionOf s.cfg.permGen s.key i] ^^^ (keySum s.key ++ keySum s.key)) ∧
  (∀ s : State, s.keyLen = 16 → PermGen.Conforming s.cfg.permGen → ∃ t, exec .decb s = .next t ∧
    ∀ i : Fin 16, t.blk[positionOf s.cfg.permGen s.key i] = s.blk[i] ^^^ (keySum s.key ++ keySum s.key)) ∧
  (∀ K : Block, (∀ i : Fin 16, K[i] = BitVec.ofNat 8 i.val) → keySum K = 0 ∧
    ∀ i : Fin 16, positionOf .lcgShuffle K i = #v[1, 15, 4, 10, 11, 2, 0, 6, 7, 14, 5, 12, 13, 8, 3, 9][i])

/-- R119, R38, R146: the reference scheduler computes the block functions, in the round order of R115, and the assembler the
ECB functions, whatever its internal registers held before. -/
def Obligations.SchedulerComputesTheCipher : Prop :=
  ∀ (g : PermGen) (K x : Block) (m : List Byte) (sc : Scheduler),
    (sc.encrypt g K x).wblk = encryptBlock g x K ∧ (sc.encrypt g K x).dir = .forward ∧
    (sc.decrypt g K x).wblk = decryptBlock g x K ∧ (sc.decrypt g K x).dir = .inverse ∧
    (sc.encryptBytes g K (pad m)).1 = ecbEncrypt g m K ∧
    (sc.decryptBytes g K m).1 = ecbDecryptRaw g m K

/-! ## Padding and message commands -/

/-- R133: the padding laws. -/
def Obligations.PaddingLaws : Prop :=
  (∀ x : List Byte, (pad x).length % 16 = 0 ∧ (pad x).length > x.length ∧ unpad (pad x) = some x) ∧
  unpad [0x01] = some [] ∧ unpad [0x02, 0x02] = some []

/-- R132: `unpad` accepts exactly the sequences that end in `c` bytes of value `c`, for a `c` in 1..16, and removes those
bytes. -/
def Obligations.UnpadAcceptsExactlyPaddedSequences : Prop :=
  ∀ s u : List Byte, unpad s = some u ↔ ∃ c : Nat, 1 ≤ c ∧ c ≤ 16 ∧ s = u ++ List.replicate c (BitVec.ofNat 8 c)

/-- R137, R138: `PAD` fails by its range and overlap checks, in that order; where its ranges are legal and its source holds the
message `m`, it completes: the padded message stands at `DST`, `OUT_LEN` is its length, and only those, `BUSY` and no other
byte of `MEM` change. -/
def Obligations.PadWritesThePaddedMessage : Prop :=
  ∀ s : State,
    s.ChecksRanges .pad s.len.toNat (16 * (s.len.toNat / 16 + 1)) ∧
    (∀ m : List Byte, m.length = s.len.toNat → s.RangesLegal s.len.toNat (16 * (s.len.toNat / 16 + 1)) →
      s.Holds s.src.toNat m →
      ∃ t, exec .pad s = .next t ∧
        t = { s with mem := t.mem, outLen := t.outLen, status := { s.status with busy := false } } ∧
        t.outLen.toNat = 16 * (s.len.toNat / 16 + 1) ∧
        t.Holds s.dst.toNat (m ++ List.replicate (16 - m.length % 16) (BitVec.ofNat 8 (16 - m.length % 16))) ∧
        s.SameMemOutside t s.dst.toNat (16 * (s.len.toNat / 16 + 1)))

/-- R139, R140: `UNPAD` fails by its range and overlap checks, in that order; where its ranges are legal and its source holds
`m`: if `m` is well padded, the message stands at `DST` and `OUT_LEN` is its length, and no byte past it is written; if not,
`ERR_PADDING` and nothing else changes. -/
def Obligations.UnpadWritesTheMessageOrFails : Prop :=
  ∀ s : State,
    s.ChecksRanges .unpad s.len.toNat s.len.toNat ∧
    (∀ m : List Byte, m.length = s.len.toNat → s.RangesLegal s.len.toNat s.len.toNat → s.Holds s.src.toNat m →
      (∀ u, unpad m = some u → ∃ t, exec .unpad s = .next t ∧
        t = { s with mem := t.mem, outLen := t.outLen, status := { s.status with busy := false } } ∧
        t.outLen.toNat = u.length ∧ t.Holds s.dst.toNat u ∧ s.SameMemOutside t s.dst.toNat u.length) ∧
      (unpad m = none → s.FailsWith .unpad 0x03))

/-- R141, R142: `ENC` fails by its key length, range and overlap checks, in that order; where they pass and its source holds the
message `m`, it completes: the ciphertext stands at `DST`, `OUT_LEN` is its length, a positive multiple of 16; only those,
`BUSY` and internal registers change. -/
def Obligations.EncWritesTheCiphertext : Prop :=
  ∀ s : State,
    (s.keyLen ≠ 16 → s.FailsWith .enc 0x01) ∧
    (s.keyLen = 16 → s.ChecksRanges .enc s.len.toNat (16 * (s.len.toNat / 16 + 1)) ∧
      (∀ m : List Byte, m.length = s.len.toNat → s.RangesLegal s.len.toNat (16 * (s.len.toNat / 16 + 1)) →
        s.Holds s.src.toNat m →
        ∃ t, exec .enc s = .next t ∧
          t = { s with mem := t.mem, outLen := t.outLen, sched := t.sched,
                       status := { s.status with busy := false } } ∧
          t.outLen.toNat = 16 * (s.len.toNat / 16 + 1) ∧
          (ecbEncrypt s.cfg.permGen m s.key).length = 16 * (s.len.toNat / 16 + 1) ∧
          t.Holds s.dst.toNat (ecbEncrypt s.cfg.permGen m s.key) ∧
          s.SameMemOutside t s.dst.toNat (16 * (s.len.toNat / 16 + 1))))

/-- R143, R144: `DEC` fails by its key length, ciphertext length, range and overlap checks, in that order; where they pass and
its source holds `c`, all `LEN` decrypted bytes `p` stand at `DST`: if `p` is well padded, `OUT_LEN` is the message's length and
the bytes after the message each equal `LEN - OUT_LEN`; if not, `ERR_PADDING`, and `OUT_LEN` keeps the 0 of acceptance. -/
def Obligations.DecWritesTheMessageOrFails : Prop :=
  ∀ s : State,
    (s.keyLen ≠ 16 → s.FailsWith .dec 0x01) ∧
    (s.keyLen = 16 → s.len.toNat = 0 ∨ s.len.toNat % 16 ≠ 0 → s.FailsWith .dec 0x02) ∧
    (s.keyLen = 16 → s.len.toNat ≠ 0 → s.len.toNat % 16 = 0 → s.ChecksRanges .dec s.len.toNat s.len.toNat ∧
      ∀ c : List Byte, c.length = s.len.toNat → s.RangesLegal s.len.toNat s.len.toNat → s.Holds s.src.toNat c →
        let p := ecbDecryptRaw s.cfg.permGen c s.key
        p.length = s.len.toNat ∧
        (∀ u, unpad p = some u → ∃ t, exec .dec s = .next t ∧
          t = { s with mem := t.mem, outLen := t.outLen, sched := t.sched,
                       status := { s.status with busy := false } } ∧
          t.outLen.toNat = u.length ∧ t.Holds s.dst.toNat p ∧ t.Holds s.dst.toNat u ∧
          (∀ j, u.length ≤ j → j < s.len.toNat →
            Memory.get t.mem (s.dst.toNat + j) = some (BitVec.ofNat 8 (s.len.toNat - u.length))) ∧
          s.SameMemOutside t s.dst.toNat s.len.toNat) ∧
        (unpad p = none → ∃ t, exec .dec s = .next t ∧
          t = { s with mem := t.mem, err := 0x03, sched := t.sched, status := { s.status with busy := false } } ∧
          t.Holds s.dst.toNat p ∧ s.SameMemOutside t s.dst.toNat s.len.toNat))

/-- R145: ciphertext block `q` is the encryption of padded-plaintext block `q` under the key and nothing else, so two equal
plaintext blocks give two equal ciphertext blocks. -/
def Obligations.EqualPlaintextBlocksGiveEqualCiphertextBlocks : Prop :=
  ∀ (s : State) (m : List Byte), s.keyLen = 16 → m.length = s.len.toNat →
    s.RangesLegal s.len.toNat (paddedLen s.len.toNat) → s.Holds s.src.toNat m →
    ∃ t, exec .enc s = .next t ∧
      (∀ q, q < s.len.toNat / 16 + 1 → ∀ x : Block, (∀ j : Fin 16, (pad m)[16 * q + j.val]? = some x[j]) →
        ∀ j : Fin 16, Memory.get t.mem (s.dst.toNat + 16 * q + j.val) = some (encryptBlock s.cfg.permGen x s.key)[j]) ∧
      (∀ q q', q < s.len.toNat / 16 + 1 → q' < s.len.toNat / 16 + 1 →
        (∀ j < 16, (pad m)[16 * q + j]? = (pad m)[16 * q' + j]?) →
        ∀ j < 16, Memory.get t.mem (s.dst.toNat + 16 * q + j) = Memory.get t.mem (s.dst.toNat + 16 * q' + j))

/-- R147: `ENC` of a message, then `DEC` of its ciphertext under the same key to any place with legal ranges, succeeds with
`OUT_LEN` the message's length and the message at its `DST`. The ciphertext's length must fit `LEN`, as R147's "`LEN =
OUT_LEN`" asks. -/
def Obligations.MessageRoundTrip : Prop :=
  ∀ (s : State) (m : List Byte) (d : Addr), s.keyLen = 16 → PermGen.Conforming s.cfg.permGen →
    m.length = s.len.toNat → s.RangesLegal s.len.toNat (paddedLen s.len.toNat) → s.Holds s.src.toNat m →
    paddedLen s.len.toNat < 2 ^ 16 →
    ∃ t, exec .enc s = .next t ∧
      let u := { t.accept (encode .dec) with src := s.dst, dst := d, len := t.outLen.setWidth 16 }
      u.RangesLegal u.len.toNat u.len.toNat →
        ∃ v, exec .dec u = .next v ∧ v.err = 0 ∧ v.outLen.toNat = s.len.toNat ∧ v.Holds d.toNat m

/-! ## Frames, invariants and whole-machine rules -/

/-- R68: a command writes `MEM` only in its destination range and reads `MEM` only in its source range: with another `MEM` that
agrees there it does the same to every register, and writes the same bytes. A layer, round or block command has no ranges. -/
def Obligations.CommandsTouchOnlyTheirRanges : Prop :=
  (∀ (s t : State) i, exec i s = .next t →
    (messageRanges i s = none → t.mem = s.mem) ∧
    (∀ src dst, messageRanges i s = some (src, dst) →
      ∀ a, dst.has a = false → Memory.get t.mem a = Memory.get s.mem a)) ∧
  (∀ (s t : State) i (other : Memory), exec i s = .next t →
    (∀ src dst, messageRanges i s = some (src, dst) →
      ∀ a, src.has a = true → Memory.get other a = Memory.get s.mem a) →
    ∃ u, exec i { s with mem := other } = .next u ∧ u = { t with mem := u.mem } ∧
      ∀ a, (Memory.get t.mem a = Memory.get s.mem a ∧ Memory.get u.mem a = Memory.get other a) ∨
        Memory.get u.mem a = Memory.get t.mem a)

/-- R22, R25, R26, R33, R105, R120, R149: no command writes `KEY`, `KEY_LEN`, `SRC`, `DST`, `LEN` or the sticky bits; a message
command does not write `BLK`; the others do not write `MEM` or `OUT_LEN`. -/
def Obligations.CommandsKeepTheOtherRegisters : Prop :=
  ∀ (s t : State) i, exec i s = .next t →
    t = { s with blk := t.blk, mem := t.mem, outLen := t.outLen, err := t.err, sched := t.sched,
                 status := { s.status with busy := false } } ∧
    (messageRanges i s ≠ none → t.blk = s.blk) ∧
    (messageRanges i s = none → t.mem = s.mem ∧ t.outLen = s.outLen)

/-- R105, R120, R149, R75: what a command reads. Layer, round and block commands give a `BLK` that depends on `BLK`, and, for
the last two, on `KEY` and `KEY_LEN`, only; a message command does not read `BLK`. -/
def Obligations.CommandsDependOnTheirOperandsOnly : Prop :=
  (∀ (s s' t t' : State) i, messageRanges i s = none → s.cfg = s'.cfg → s.blk = s'.blk → s.key = s'.key →
    s.keyLen = s'.keyLen → exec i s = .next t → exec i s' = .next t' → t.blk = t'.blk) ∧
  (∀ (s s' t t' : State) k i, i ∈ [Instr.subf k, .subi k, .perf k, .peri k, .mix k] → s.cfg = s'.cfg → s.blk = s'.blk →
    exec i s = .next t → exec i s' = .next t' → t.blk = t'.blk) ∧
  (∀ (s : State) i b, messageRanges i s ≠ none →
    exec i { s with blk := b } = mapNext (fun t => { t with blk := b }) (exec i s))

/-- R157, R158: a command that fails leaves everything but `ERR` and `BUSY` as it was, except that `DEC`'s `ERR_PADDING` leaves
the decrypted bytes in its destination range (and internal registers); the code is one of R150. -/
def Obligations.ErrorsArePrecise : Prop :=
  ∀ (s t : State) i, exec i s = .next t → s.err = 0 → t.err ≠ 0 →
    legalErr t.err = true ∧
    (t = { s with err := t.err, status := { s.status with busy := false } } ∨
      (i = .dec ∧ t.err = 0x03 ∧ s.SameMemOutside t s.dst.toNat s.len.toNat ∧
        (∃ c : List Byte, c.length = s.len.toNat ∧ s.Holds s.src.toNat c ∧
          t.Holds s.dst.toNat (ecbDecryptRaw s.cfg.permGen c s.key)) ∧
        t = { s with err := 0x03, mem := t.mem, sched := t.sched, status := { s.status with busy := false } }))

/-- R38: nothing a host can see depends on what the internal registers hold: two states that differ in them only (and, while
idle, in the stale command word) step alike. -/
def Obligations.InternalRegistersAreUnobservable : Prop :=
  ∀ s s' : State, s.hideInternal = s'.hideInternal →
    mapNext State.hideInternal (step s) = mapNext State.hideInternal (step s')

/-- The invariant `State.Inv` (R8, R9, R31, R43, R50, R150, R160) is kept by every step from every state that has it. Its clause
`rnd < 16` is the model's choice: R38 gives `rnd` a value 0..15 only while a command runs and R44 leaves it unspecified after
reset; what a reset leaves in it is assumption 11, what commands leave assumption 13. -/
def Obligations.EveryStepKeepsTheInvariant : Prop := ∀ s t : State, s.Inv → step s = .next t → t.Inv

/-- The invariant holds after reset, for the spec's defaults and for every legal core. Its clause `rnd < 16` rests there on the
model's choice of `rnd` after reset (assumption 11), which R44 leaves unspecified. -/
def Obligations.ResetHasTheInvariant : Prop :=
  State.reset.Inv ∧ ∀ cfg : Config, cfg.Legal → (State.resetWith cfg).Inv

/-- R156, R183: an accepted command completes at the core's turn, whatever it is and however long: `BUSY` returns to 0, or the
command has read a byte without a value (R56). -/
def Obligations.AcceptedCommandCompletes : Prop :=
  ∀ s : State, s.status.busy = true → s.CoreMoves →
    (∃ t, step s = .next t ∧ t.status.busy = false ∧ t.inbox = s.inbox.tail) ∨ step s = .fault .unwrittenRead

/-- R82, R183: `WAIT` is the loop `loop: R STATUS; if bit 0 = 1 goto loop`. The host stays in it while `BUSY = 1` and leaves it when
it reads `BUSY = 0`; each round reads `STATUS` and does nothing else; and once the core has had its turn the next round ends
it, in a state that does not depend on how many rounds came before. (Whose turn it is is a list, assumption 21.) -/
def Obligations.WaitLoopsUntilBusyIsZero : Prop :=
  ∀ (p : HostProgram.Running) rest, p.todo = HostProgram.wait ++ rest →
    (p.core.status.busy = false → HostProgram.play [.host] p =
      .next { p with todo := rest, core := { p.core with resp := .word p.core.status.word } }) ∧
    (p.core.status.busy = true →
      (∀ n, HostProgram.play (List.replicate (n + 1) .host) p =
        .next { p with core := { p.core with resp := .word p.core.status.word } }) ∧
      (∀ n m t, coreTurn p.core = .next t →
        HostProgram.play (List.replicate n .host ++ .core :: List.replicate m .core ++ [.host]) p =
          .next { p with todo := rest, core := { t with resp := .word t.status.word } }))

/-- R82, R16: each turn of a host program is one step of the machine: the host's turn takes the program's next access as its
event, `R STATUS` for a `WAIT`, and a program that is done takes no step; the core's turn takes the core's. What stops the
machine stops the program. -/
def Obligations.HostProgramTurnsAreSteps : Prop :=
  ∀ p : HostProgram.Running,
    let stepOn := fun e => step { p.core with inbox := e :: p.core.inbox }
    (p.todo = [] → HostProgram.move .host p = .next p) ∧
    (∀ a rest, p.todo = .access a :: rest → HostProgram.move .host p =
      HostProgram.Running.andThen (stepOn (.host a)) fun t => { todo := rest, got := p.got ++ [t.resp], core := t }) ∧
    (∀ rest, p.todo = .wait :: rest → HostProgram.move .host p =
      HostProgram.Running.andThen (stepOn (.host (.regRead 0x08 .w32))) fun t =>
        { p with todo := if t.status.busy then p.todo else rest, core := t }) ∧
    HostProgram.move .core p = HostProgram.Running.andThen (stepOn .coreTurn) fun t => { p with core := t }

/-- R62 item 3: between commands the core does nothing: while idle, what the host sees changes only by the host's own writes
or by reset. -/
def Obligations.IdleStateChangesOnlyByHostWrites : Prop :=
  ∀ s t : State, s.status.busy = false → step s = .next t →
    s.ResetComes ∨ (∃ o w v rest, s.inbox = .host (.regWrite o w v) :: rest) ∨
      (∃ a v rest, s.inbox = .host (.memWrite a v) :: rest) ∨
      t = { s with inbox := s.inbox.tail, resp := t.resp, draws := t.draws }

/-- R22, R23, R25 to R27, R31, R34, R42, R159, R170: which events change a register. The operand registers `KEY`, `KEY_LEN`,
`SRC`, `DST` and `LEN` change only by a host write while idle, or by reset; `BLK` by those and by the core's step while
busy; `ERR` and `OUT_LEN` only by acceptance, by the completion of a command, or by reset; the parameters never. (`STATUS`
is in `Obligations.StatusFieldsFollowTheirRules`; `ID` is a constant and `CMD` holds nothing.) -/
def Obligations.RegistersChangeOnlyByNamedEvents : Prop :=
  ∀ s t : State, step s = .next t → t.cfg = s.cfg ∧
    (s.ResetComes ∨
      ((t.key ≠ s.key → s.status.busy = false ∧ ∃ w v, s.WritesReg (.keyWord w) v) ∧
       (t.keyLen ≠ s.keyLen → s.status.busy = false ∧ ∃ v, s.WritesReg .keyLen v) ∧
       (t.src ≠ s.src → s.status.busy = false ∧ ∃ v, s.WritesReg .src v) ∧
       (t.dst ≠ s.dst → s.status.busy = false ∧ ∃ v, s.WritesReg .dst v) ∧
       (t.len ≠ s.len → s.status.busy = false ∧ ∃ v, s.WritesReg .len v) ∧
       (t.blk ≠ s.blk →
         (s.status.busy = false ∧ ∃ w v, s.WritesReg (.blkWord w) v) ∨ (s.status.busy = true ∧ s.CoreMoves)) ∧
       (t.err ≠ s.err ∨ t.outLen ≠ s.outLen →
         (s.status.busy = false ∧ ∃ v, s.WritesReg .cmd v) ∨ (s.status.busy = true ∧ s.CoreMoves))))
end

