-- ==== Sys2Proof/Laws/Cipher.lean ====
section
/-! SUPPORT. The laws of the cipher's pure functions: what each puts in every lane, that each layer's inverse undoes
it, the lengths of the codec's sequences, and what the scheduler leaves in `wblk`. -/

namespace Sys2Proof.Machine

/-- Two blocks with the same lanes are equal. -/
theorem Block.ext {x y : Block} (h : ∀ i : Fin 16, x[i] = y[i]) : x = y :=
  Vector.ext fun i hi => h ⟨i, hi⟩

/-! ## Lanes (R104)

Each with the index as a number, the form `simp` brings an index to, and with the index as a lane. -/

@[simp] theorem substFwdBlock_getElem_nat (x : Block) (k : Byte) (i : Nat) (h : i < 16) :
    (substFwdBlock x k)[i] = substFwd x[i] k := by simp [substFwdBlock]

@[simp] theorem substInvBlock_getElem_nat (x : Block) (k : Byte) (i : Nat) (h : i < 16) :
    (substInvBlock x k)[i] = substInv x[i] k := by simp [substInvBlock]

@[simp] theorem gather_getElem_nat (x : Block) (p : Perm) (i : Nat) (h : i < 16) :
    (gather x p)[i] = x[p[i].val] := by simp [gather]

@[simp] theorem permFwd_getElem_nat (g : PermGen) (x : Block) (k : Byte) (i : Nat) (h : i < 16) :
    (permFwd g x k)[i] = x[(permOf g k)[i].val] := gather_getElem_nat ..

@[simp] theorem mix_getElem_nat (x : Block) (k : Byte) (i : Nat) (h : i < 16) : (mix x k)[i] = x[i] ^^^ k := by
  simp [mix]

theorem substFwdBlock_getElem (x : Block) (k : Byte) (i : Fin 16) : (substFwdBlock x k)[i] = substFwd x[i] k :=
  substFwdBlock_getElem_nat x k i.val i.isLt

theorem substInvBlock_getElem (x : Block) (k : Byte) (i : Fin 16) : (substInvBlock x k)[i] = substInv x[i] k :=
  substInvBlock_getElem_nat x k i.val i.isLt

theorem gather_getElem (x : Block) (p : Perm) (i : Fin 16) : (gather x p)[i] = x[p[i]] :=
  gather_getElem_nat x p i.val i.isLt

theorem permFwd_getElem (g : PermGen) (x : Block) (k : Byte) (i : Fin 16) :
    (permFwd g x k)[i] = x[(permOf g k)[i]] := gather_getElem ..

theorem mix_getElem (x : Block) (k : Byte) (i : Fin 16) : (mix x k)[i] = x[i] ^^^ k :=
  mix_getElem_nat x k i.val i.isLt

/-! ## The layers and their inverses (R91, R98, R101) -/

/-- `swap_nibbles` is its own inverse (R90). -/
@[simp] theorem swapNibbles_swapNibbles (b : Byte) : swapNibbles (swapNibbles b) = b := by
  revert b; decide

/-- `swap_nibbles` commutes with `xor` (R90). -/
theorem swapNibbles_xor (a c : Byte) : swapNibbles (a ^^^ c) = swapNibbles a ^^^ swapNibbles c := by
  simp only [swapNibbles]
  ext i hi
  simp only [BitVec.getElem_or, BitVec.getElem_shiftLeft, BitVec.getElem_ushiftRight, BitVec.getElem_xor,
    BitVec.getLsbD_xor, BitVec.getElem_and]
  interval_cases i <;> simp [BitVec.getLsbD_of_ge]

@[simp] theorem xor_xor_cancel (b k : Byte) : b ^^^ k ^^^ k = b := by
  rw [BitVec.xor_assoc, BitVec.xor_self, BitVec.xor_zero]

@[simp] theorem substInv_substFwd (b k : Byte) : substInv (substFwd b k) k = b := by simp [substInv, substFwd]

@[simp] theorem substFwd_substInv (b k : Byte) : substFwd (substInv b k) k = b := by simp [substInv, substFwd]

/-- The entry of the inverse that the loop of R97 has written by the time it has passed `l`. -/
theorem invertPerm_fold {p : Perm} (hp : Perm.Bijective p) (l : List (Fin 16)) (q : Perm) (i : Fin 16)
    (h : i ∈ l ∨ q[p[i]] = i) :
    (l.foldl (fun q i => q.set p[i].val i p[i].isLt) q)[p[i]] = i := by
  induction l generalizing q with
  | nil => simpa using h
  | cons j l ih =>
    apply ih
    by_cases hij : i = j
    · subst hij; exact .inr (by simp)
    · rcases h with h | h
      · exact .inl ((List.mem_cons.1 h).resolve_left hij)
      · right
        have : p[j].val ≠ p[i].val := fun e => hij (hp i j (Fin.ext e.symm))
        show (q.set p[j].val j p[j].isLt)[p[i].val] = i
        rw [Vector.getElem_set, if_neg this]
        exact h

/-- `Pinv[P[i]] = i` (R97). -/
theorem invertPerm_left {p : Perm} (hp : Perm.Bijective p) (i : Fin 16) : (invertPerm p)[p[i]] = i :=
  invertPerm_fold hp _ _ i (.inl (List.mem_finRange i))

/-- `P[Pinv[j]] = j` for a bijection (R98). -/
theorem invertPerm_right {p : Perm} (hp : Perm.Bijective p) (j : Fin 16) : p[(invertPerm p)[j]] = j := by
  have hs : Function.Surjective (fun i : Fin 16 => p[i]) := Finite.injective_iff_surjective.1 (fun a b h => hp a b h)
  obtain ⟨i, rfl⟩ := hs j
  exact congrArg (fun i : Fin 16 => p[i]) (invertPerm_left hp i)

theorem gather_invertPerm_gather {p : Perm} (hp : Perm.Bijective p) (x : Block) :
    gather (gather x p) (invertPerm p) = x :=
  Block.ext fun i => by
    rw [gather_getElem, gather_getElem]
    exact congrArg (fun j : Fin 16 => x[j]) (invertPerm_right hp i)

theorem gather_gather_invertPerm {p : Perm} (hp : Perm.Bijective p) (x : Block) :
    gather (gather x (invertPerm p)) p = x :=
  Block.ext fun i => by
    rw [gather_getElem, gather_getElem]
    exact congrArg (fun j : Fin 16 => x[j]) (invertPerm_left hp i)

/-- `perm_inv` puts byte `i` back at `P[i]` (R97). -/
theorem permInv_getElem {g : PermGen} {k : Byte} (hp : Perm.Bijective (permOf g k)) (y : Block) (i : Fin 16) :
    (permInv g y k)[(permOf g k)[i]] = y[i] := by
  rw [permInv, gather_getElem]
  exact congrArg (fun j : Fin 16 => y[j]) (invertPerm_left hp i)

/-- `perm_inv(perm_fwd(x, k), k) = x` (R98). -/
theorem permInv_permFwd {g : PermGen} {k : Byte} (hp : Perm.Bijective (permOf g k)) (x : Block) :
    permInv g (permFwd g x k) k = x := gather_invertPerm_gather hp x

/-- `perm_fwd(perm_inv(y, k), k) = y` (R98). -/
theorem permFwd_permInv {g : PermGen} {k : Byte} (hp : Perm.Bijective (permOf g k)) (y : Block) :
    permFwd g (permInv g y k) k = y := gather_gather_invertPerm hp y

/-- The inverse of a bijection is a bijection. -/
theorem Perm.Bijective.invertPerm {p : Perm} (hp : Perm.Bijective p) : Perm.Bijective (invertPerm p) :=
  fun i j h => by
    rw [← invertPerm_right hp i, ← invertPerm_right hp j]
    exact congrArg (fun a : Fin 16 => p[a]) h

/-- Moving the bytes of a block by a bijection keeps their multiset (R98). -/
theorem gather_perm {p : Perm} (hp : Perm.Bijective p) (x : Block) : (gather x p).toList.Perm x.toList := by
  have hb : Function.Bijective (fun i : Fin 16 => p[i]) := Finite.injective_iff_bijective.1 fun a b h => hp a b h
  have hx : ∀ y : Block, y.toList = (List.finRange 16).map fun i => y[i] := fun y =>
    List.ext_getElem (by simp) fun i _ _ => by simp
  have hg : (List.finRange 16).map (fun i => (gather x p)[i]) =
      ((List.finRange 16).map (Equiv.ofBijective _ hb)).map fun i => x[i] := by
    rw [List.map_map]
    exact List.map_congr_left fun i _ => gather_getElem x p i
  rw [hx, hx, hg]
  exact (Equiv.Perm.map_finRange_perm _).map _

/-- A generator that gives a bijection for `k` meets the permutation contract for `k` (R98). -/
theorem permContract_of_bijective {g : PermGen} {k : Byte} (hp : Perm.Bijective (permOf g k)) : PermContract g k :=
  fun x => ⟨permInv_permFwd hp x, permFwd_permInv hp x, gather_perm hp x, gather_perm hp.invertPerm x⟩

/-! ## The default generator (R94) -/

/-- A swap of two entries of a bijection is a bijection. -/
theorem Perm.Bijective.swap {p : Perm} (hp : Perm.Bijective p) {a b : Nat} (ha : a < 16) (hb : b < 16) :
    Perm.Bijective (p.swap a b) := by
  intro i j h
  have h' : (p.swap a b)[i.val] = (p.swap a b)[j.val] := h
  rw [Vector.getElem_swap, Vector.getElem_swap] at h'
  have inj : ∀ (m n : Nat) (hm : m < 16) (hn : n < 16), p[m] = p[n] → m = n := fun m n hm hn e =>
    congrArg Fin.val (hp ⟨m, hm⟩ ⟨n, hn⟩ e)
  apply Fin.ext
  split_ifs at h' with h₁ h₂ h₃ h₄ h₅ h₆ h₇ <;>
    first
      | omega
      | (have := inj _ _ _ _ h'; omega)

/-! ## Lengths of the codec's sequences (R130, R134) -/

@[simp] theorem length_pad (m : List Byte) : (pad m).length = 16 * (m.length / 16 + 1) := by
  simp only [pad, padLen, List.length_append, List.length_replicate]
  omega

@[simp] theorem length_splitBlocks (n : Nat) (s : List Byte) : (splitBlocks n s).length = n := by
  induction n generalizing s with
  | zero => rfl
  | succ n ih => simp [splitBlocks, ih]

@[simp] theorem length_joinBlocks (bs : List Block) : (joinBlocks bs).length = 16 * bs.length := by
  induction bs with
  | nil => rfl
  | cons b bs ih =>
    simp only [joinBlocks, List.flatMap_cons, List.length_append, Vector.length_toList, List.length_cons] at ih ⊢
    omega

@[simp] theorem length_ecbEncrypt (g : PermGen) (m : List Byte) (K : Block) :
    (ecbEncrypt g m K).length = 16 * (m.length / 16 + 1) := by
  simp only [ecbEncrypt, length_joinBlocks, List.length_map, length_splitBlocks, length_pad]
  omega

@[simp] theorem length_ecbDecryptRaw (g : PermGen) (c : List Byte) (K : Block) :
    (ecbDecryptRaw g c K).length = 16 * (c.length / 16) := by
  simp [ecbDecryptRaw]

/-- What `unpad` removes: between 1 and 16 bytes, all of the sequence's own (R132). -/
theorem unpad_length {s u : List Byte} (h : unpad s = some u) :
    u.length < s.length ∧ s.length ≤ u.length + 16 ∧ u = s.take u.length := by
  unfold unpad at h
  split at h
  · cases h
  · rename_i c hc
    split_ifs at h with h₁ h₂
    simp only [not_or] at h₁
    have hc0 : c.toNat ≠ 0 := fun e => h₁.1 (BitVec.eq_of_toNat_eq (by simpa using e))
    obtain rfl := Option.some.inj h
    refine ⟨?_, ?_, ?_⟩
    · simp only [List.length_take]; omega
    · simp only [List.length_take]; omega
    · simp only [List.length_take]
      congr 1
      omega

/-! ## The scheduler (R119) -/

@[simp] theorem Scheduler.forwardRound_wblk (g : PermGen) (K : Block) (sc : Scheduler) (r : Fin 16) :
    (sc.forwardRound g K r).wblk = roundFwd g sc.wblk K[r] := rfl

@[simp] theorem Scheduler.inverseRound_wblk (g : PermGen) (K : Block) (sc : Scheduler) (r : Fin 16) :
    (sc.inverseRound g K r).wblk = roundInv g sc.wblk K[r] := rfl

end Sys2Proof.Machine
end

