-- ==== Sys2Proof/Laws/Memory.lean ====
section
/-! SUPPORT. The laws of `MEM`: reading after writing, the canonical form, byte sequences. -/

namespace Sys2Proof.Machine

/-! ## One byte -/

@[simp] theorem Memory.get_nil (k : Nat) : Memory.get [] k = none := rfl

/-- Reading one byte after writing one byte. -/
theorem Memory.get_set (m : Memory) (k : Nat) (v : Byte) (j : Nat) :
    Memory.get (Memory.set m k v) j = if j = k then some v else Memory.get m j := by
  induction m with
  | nil =>
    simp only [Memory.set, Memory.get]
    split_ifs <;> first | rfl | omega
  | cons c m ih =>
    obtain ⟨a, b⟩ := c
    simp only [Memory.set]
    split_ifs with h₁ h₂ <;> simp only [Memory.get, ih] <;> split_ifs <;> first | rfl | omega

@[simp] theorem Memory.get_set_self (m : Memory) (k : Nat) (v : Byte) :
    Memory.get (Memory.set m k v) k = some v := by simp [Memory.get_set]

theorem Memory.get_set_of_ne (m : Memory) {k j : Nat} (v : Byte) (h : j ≠ k) :
    Memory.get (Memory.set m k v) j = Memory.get m j := by simp [Memory.get_set, h]

/-- A write lists no address but its own anew. -/
theorem Memory.mem_set {m : Memory} {k : Nat} {v : Byte} {c : Host.Cell} (h : c ∈ Memory.set m k v) :
    c = (k, v) ∨ c ∈ m := by
  induction m with
  | nil => simpa [Memory.set] using h
  | cons d m ih =>
    obtain ⟨a, b⟩ := d
    simp only [Memory.set] at h
    split_ifs at h <;> grind

/-- A write keeps the canonical form. -/
theorem Memory.wf_set {m : Memory} (hm : Memory.wf m) (k : Nat) (v : Byte) : Memory.wf (Memory.set m k v) := by
  induction m with
  | nil => simp [Memory.set]
  | cons c m ih =>
    obtain ⟨a, b⟩ := c
    have hm' := List.pairwise_cons.1 hm
    simp only [Memory.set]
    split_ifs with h₁ h₂
    · exact List.pairwise_cons.2 ⟨fun y hy => by
        rcases List.mem_cons.1 hy with rfl | hy
        · exact h₁
        · exact Nat.lt_trans h₁ (hm'.1 y hy), hm⟩
    · subst h₂
      exact List.pairwise_cons.2 ⟨fun y hy => hm'.1 y hy, hm'.2⟩
    · refine List.pairwise_cons.2 ⟨fun y hy => ?_, ih hm'.2⟩
      rcases Memory.mem_set hy with rfl | hy
      · show a < k
        omega
      · exact hm'.1 y hy

theorem Memory.mem_forget {m : Memory} {k : Nat} {c : Host.Cell} (h : c ∈ Memory.forget m k) : c ∈ m := by
  induction m with
  | nil => simp [Memory.forget] at h
  | cons d m ih =>
    obtain ⟨a, b⟩ := d
    simp only [Memory.forget] at h
    split_ifs at h <;> grind

theorem Memory.wf_forget {m : Memory} (hm : Memory.wf m) (k : Nat) : Memory.wf (Memory.forget m k) := by
  induction m with
  | nil => exact hm
  | cons c m ih =>
    obtain ⟨a, b⟩ := c
    have hm' := List.pairwise_cons.1 hm
    simp only [Memory.forget]
    split_ifs
    · exact ih hm'.2
    · exact List.pairwise_cons.2 ⟨fun y hy => hm'.1 y (Memory.mem_forget hy), ih hm'.2⟩

/-- In canonical form, no byte is read below every listed address. -/
theorem Memory.get_eq_none_of_lt {m : Memory} {k : Nat} (h : ∀ c ∈ m, k < c.1) : Memory.get m k = none := by
  cases m with
  | nil => rfl
  | cons c m => simp [Memory.get, h c (List.mem_cons_self ..)]

/-- Reading one byte after one has lost its value. -/
theorem Memory.get_forget {m : Memory} (hm : Memory.wf m) (k j : Nat) :
    Memory.get (Memory.forget m k) j = if j = k then none else Memory.get m j := by
  induction m with
  | nil => simp [Memory.forget]
  | cons c m ih =>
    obtain ⟨a, b⟩ := c
    have hm' := List.pairwise_cons.1 hm
    have hlt : ∀ i, i ≤ a → Memory.get m i = none := fun i hi =>
      Memory.get_eq_none_of_lt fun c hc => Nat.lt_of_le_of_lt hi (hm'.1 c hc)
    simp only [Memory.forget]
    split_ifs with h₁ h₂ h₂
    · rw [ih hm'.2, if_pos h₂]
    · rw [ih hm'.2, if_neg h₂]
      simp only [Memory.get]
      split_ifs with h₃ h₄
      · exact hlt j (by omega)
      · omega
      · rfl
    · subst h₂
      simp only [Memory.get, ih hm'.2]
      split_ifs <;> rfl
    · simp only [Memory.get, ih hm'.2, if_neg h₂]

/-- In canonical form, what is read is what is listed. -/
theorem Memory.get_eq_some_iff {m : Memory} (hm : Memory.wf m) (k : Nat) (v : Byte) :
    Memory.get m k = some v ↔ (k, v) ∈ m := by
  induction m with
  | nil => simp
  | cons c m ih =>
    obtain ⟨a, b⟩ := c
    have hm' := List.pairwise_cons.1 hm
    have hlt : (k, v) ∈ m → a < k := fun h => hm'.1 _ h
    simp only [Memory.get, List.mem_cons, Prod.mk.injEq]
    split_ifs with h₁ h₂
    · constructor
      · intro h; cases h
      · rintro (⟨rfl, rfl⟩ | h)
        · exact absurd h₁ (Nat.lt_irrefl _)
        · have := hlt h; omega
    · subst h₂
      constructor
      · intro h; exact .inl ⟨rfl, (Option.some.inj h).symm⟩
      · rintro (⟨-, rfl⟩ | h)
        · rfl
        · exact absurd (hlt h) (Nat.lt_irrefl _)
    · rw [ih hm'.2]
      constructor
      · exact .inr
      · rintro (⟨rfl, rfl⟩ | h)
        · exact absurd rfl h₂
        · exact h

/-- Two memories in canonical form that read alike everywhere are equal. -/
theorem Memory.ext_get {m n : Memory} (hm : Memory.wf m) (hn : Memory.wf n)
    (h : ∀ k, Memory.get m k = Memory.get n k) : m = n := by
  have hmem : ∀ c, c ∈ m ↔ c ∈ n := fun ⟨k, v⟩ => by
    rw [← Memory.get_eq_some_iff hm, ← Memory.get_eq_some_iff hn, h]
  have hnd : ∀ {l : Memory}, Memory.wf l → l.Nodup := fun hl =>
    List.Pairwise.imp (fun {a b} (hab : a.1 < b.1) (e : a = b) => by subst e; exact Nat.lt_irrefl _ hab) hl
  have hperm : m.Perm n := (List.perm_ext_iff_of_nodup (hnd hm) (hnd hn)).2 hmem
  exact hperm.eq_of_pairwise (fun a b _ _ (h₁ : a.1 < b.1) (h₂ : b.1 < a.1) => by omega) hm hn

/-! ## Byte sequences -/

/-- Reading one byte after writing a sequence. -/
theorem Memory.get_writeBytes (m : Memory) (a : Nat) (s : List Byte) (j : Nat) :
    Memory.get (Memory.writeBytes m a s) j =
      if a ≤ j then (match s[j - a]? with
        | some b => some b
        | none => Memory.get m j) else Memory.get m j := by
  induction s generalizing m a with
  | nil => simp [Memory.writeBytes]
  | cons b s ih =>
    rw [Memory.writeBytes, ih, Memory.get_set]
    rcases Nat.lt_trichotomy j a with h | rfl | h
    · rw [if_neg (by omega), if_neg (by omega), if_neg (by omega)]
    · rw [if_neg (by omega), if_pos rfl, if_pos (Nat.le_refl _)]
      simp
    · rw [if_pos (by omega), if_neg (by omega), if_pos (by omega)]
      obtain ⟨d, rfl⟩ : ∃ d, j = a + 1 + d := ⟨j - (a + 1), by omega⟩
      have h₁ : a + 1 + d - (a + 1) = d := by omega
      have h₂ : a + 1 + d - a = d + 1 := by omega
      rw [h₁, h₂, List.getElem?_cons_succ]

/-- A written sequence stands where it was written. -/
theorem Memory.get_writeBytes_inside (m : Memory) (a : Nat) (s : List Byte) {j : Nat} (h : j < s.length) :
    Memory.get (Memory.writeBytes m a s) (a + j) = some s[j] := by
  have : a + j - a = j := by omega
  simp [Memory.get_writeBytes, this, h]

/-- A write leaves every byte outside it alone. -/
theorem Memory.get_writeBytes_outside (m : Memory) (a : Nat) (s : List Byte) {k : Nat}
    (h : k < a ∨ a + s.length ≤ k) : Memory.get (Memory.writeBytes m a s) k = Memory.get m k := by
  rw [Memory.get_writeBytes]
  split_ifs with hk
  · rw [List.getElem?_eq_none (by omega)]
  · rfl

theorem Memory.wf_writeBytes {m : Memory} (hm : Memory.wf m) (a : Nat) (s : List Byte) :
    Memory.wf (Memory.writeBytes m a s) := by
  induction s generalizing m a with
  | nil => exact hm
  | cons b s ih => exact ih (Memory.wf_set hm a b) (a + 1)

/-- What `MemRead` answers, said once: a sequence of the length asked for, of the bytes that stand there. -/
theorem Memory.readBytes_eq_some_iff (m : Memory) (a n : Nat) (s : List Byte) :
    Memory.readBytes m a n = some s ↔
      s.length = n ∧ ∀ j (h : j < s.length), Memory.get m (a + j) = some s[j] := by
  induction n generalizing a s with
  | zero =>
    simp only [Memory.readBytes, Option.some.injEq]
    constructor
    · rintro rfl; exact ⟨rfl, fun j h => absurd h (Nat.not_lt_zero j)⟩
    · rintro ⟨h, -⟩; exact (List.length_eq_zero_iff.1 h).symm
  | succ n ih =>
    rw [Memory.readBytes]
    cases hb : Memory.get m a with
    | none =>
      simp only [reduceCtorEq, false_iff, not_and]
      intro hl h
      have := h 0 (by omega)
      simp [hb] at this
    | some b =>
      simp only [Option.map_eq_some_iff, ih]
      constructor
      · rintro ⟨u, ⟨hl, hu⟩, rfl⟩
        refine ⟨by simp [hl], fun j h => ?_⟩
        cases j with
        | zero => simpa using hb
        | succ j =>
          have := hu j (by simpa using h)
          rw [show a + (j + 1) = a + 1 + j by omega, this]
          simp
      · rintro ⟨hl, h⟩
        cases s with
        | nil => simp at hl
        | cons c u =>
          have h0 := h 0 (by simp)
          simp only [Nat.add_zero, hb, List.getElem_cons_zero, Option.some.injEq] at h0
          subst h0
          refine ⟨u, ⟨by simpa using hl, fun j hj => ?_⟩, rfl⟩
          have := h (j + 1) (by simpa using hj)
          rw [show a + 1 + j = a + (j + 1) by omega, this]
          simp

/-- `MemRead` answers exactly when every byte has a value. -/
theorem Memory.readBytes_eq_none_iff (m : Memory) (a n : Nat) :
    Memory.readBytes m a n = none ↔ ∃ j < n, Memory.get m (a + j) = none := by
  induction n generalizing a with
  | zero => simp [Memory.readBytes]
  | succ n ih =>
    rw [Memory.readBytes]
    cases hb : Memory.get m a with
    | none => simpa using ⟨0, by omega, by simpa using hb⟩
    | some b =>
      simp only [Option.map_eq_none_iff, ih]
      constructor
      · rintro ⟨j, hj, h⟩
        exact ⟨j + 1, by omega, by rw [show a + (j + 1) = a + 1 + j by omega]; exact h⟩
      · rintro ⟨j, hj, h⟩
        cases j with
        | zero => simp [hb] at h
        | succ j => exact ⟨j, by omega, by rw [show a + 1 + j = a + (j + 1) by omega]; exact h⟩

theorem Memory.length_readBytes {m : Memory} {a n : Nat} {s : List Byte} (h : Memory.readBytes m a n = some s) :
    s.length = n := ((Memory.readBytes_eq_some_iff m a n s).1 h).1

/-- A sequence that was written is read back. -/
theorem Memory.readBytes_writeBytes (m : Memory) (a : Nat) (s : List Byte) :
    Memory.readBytes (Memory.writeBytes m a s) a s.length = some s :=
  (Memory.readBytes_eq_some_iff _ _ _ _).2 ⟨rfl, fun _ h => Memory.get_writeBytes_inside m a s h⟩

/-! ## Bytes after a reset in the middle of a command -/

theorem Memory.wf_copyByte {m : Memory} (hm : Memory.wf m) (new : Memory) (a : Nat) :
    Memory.wf (Memory.copyByte m new a) := by
  unfold Memory.copyByte
  split
  · exact Memory.wf_set hm _ _
  · exact hm

/-- A copied byte holds its old or its new value, and only it may change. -/
theorem Memory.get_copyByte (m new : Memory) (a j : Nat) :
    Memory.get (Memory.copyByte m new a) j = Memory.get m j ∨
      (j = a ∧ Memory.get (Memory.copyByte m new a) j = Memory.get new j) := by
  unfold Memory.copyByte
  cases h : Memory.get new a with
  | none => exact .inl rfl
  | some b =>
    rcases eq_or_ne j a with rfl | hj
    · exact .inr ⟨rfl, by simp [h]⟩
    · exact .inl (by simp [Memory.get_set_of_ne m b hj])

theorem Memory.wf_mixBytes {m : Memory} (hm : Memory.wf m) (new : Memory) (pick : Nat → Bool) (a n : Nat) :
    Memory.wf (Memory.mixBytes m new pick a n) := by
  induction n generalizing m a with
  | zero => exact hm
  | succ n ih =>
    rw [Memory.mixBytes]
    split
    · exact ih (Memory.wf_copyByte hm new a) _
    · exact ih hm _

/-- What `mixBytes` can do: every byte holds its old value, or lies in the range and holds its new one. -/
theorem Memory.get_mixBytes (m new : Memory) (pick : Nat → Bool) (a n j : Nat) :
    Memory.get (Memory.mixBytes m new pick a n) j = Memory.get m j ∨
      (a ≤ j ∧ j < a + n ∧ Memory.get (Memory.mixBytes m new pick a n) j = Memory.get new j) := by
  induction n generalizing m a with
  | zero => exact .inl rfl
  | succ n ih =>
    rw [Memory.mixBytes]
    rcases ih (if pick a then Memory.copyByte m new a else m) (a + 1) with h | ⟨h₁, h₂, h₃⟩
    · rw [h]
      split
      · rcases Memory.get_copyByte m new a j with h' | ⟨rfl, h'⟩
        · exact .inl h'
        · exact .inr ⟨by omega, by omega, h'⟩
      · exact .inl rfl
    · exact .inr ⟨by omega, by omega, h₃⟩

theorem Memory.wf_forgetBytes {m : Memory} (hm : Memory.wf m) (a n : Nat) : Memory.wf (Memory.forgetBytes m a n) := by
  induction n generalizing m a with
  | zero => exact hm
  | succ n ih => exact ih (Memory.wf_forget hm a) _

/-- What `forgetBytes` does: the bytes of the range lose their values, the others keep theirs. -/
theorem Memory.get_forgetBytes {m : Memory} (hm : Memory.wf m) (a n j : Nat) :
    Memory.get (Memory.forgetBytes m a n) j = if a ≤ j ∧ j < a + n then none else Memory.get m j := by
  induction n generalizing m a with
  | zero =>
    rw [Memory.forgetBytes, if_neg (by omega)]
  | succ n ih =>
    rw [Memory.forgetBytes, ih (Memory.wf_forget hm a), Memory.get_forget hm]
    split_ifs <;> first | rfl | omega

end Sys2Proof.Machine
end

