-- ==== Sys2Proof/Laws/State.lean ====
section
/-! SUPPORT. One lemma per field per update of the state, each true by `rfl`, so that no proof unfolds a record
update. -/

namespace Sys2Proof.Machine

/-! ## `State.accept` -/

@[simp] theorem State.accept_cfg (s : State) (w : Word) : (s.accept w).cfg = s.cfg := rfl
@[simp] theorem State.accept_status (s : State) (w : Word) : (s.accept w).status = { s.status with busy := true } := rfl
@[simp] theorem State.accept_err (s : State) (w : Word) : (s.accept w).err = errNone := rfl
@[simp] theorem State.accept_keyLen (s : State) (w : Word) : (s.accept w).keyLen = s.keyLen := rfl
@[simp] theorem State.accept_src (s : State) (w : Word) : (s.accept w).src = s.src := rfl
@[simp] theorem State.accept_dst (s : State) (w : Word) : (s.accept w).dst = s.dst := rfl
@[simp] theorem State.accept_len (s : State) (w : Word) : (s.accept w).len = s.len := rfl
@[simp] theorem State.accept_outLen (s : State) (w : Word) : (s.accept w).outLen = 0 := rfl
@[simp] theorem State.accept_key (s : State) (w : Word) : (s.accept w).key = s.key := rfl
@[simp] theorem State.accept_blk (s : State) (w : Word) : (s.accept w).blk = s.blk := rfl
@[simp] theorem State.accept_mem (s : State) (w : Word) : (s.accept w).mem = s.mem := rfl
@[simp] theorem State.accept_curCmd (s : State) (w : Word) : (s.accept w).curCmd = w := rfl
@[simp] theorem State.accept_sched (s : State) (w : Word) : (s.accept w).sched = s.sched := rfl
@[simp] theorem State.accept_inbox (s : State) (w : Word) : (s.accept w).inbox = s.inbox := rfl
@[simp] theorem State.accept_resp (s : State) (w : Word) : (s.accept w).resp = s.resp := rfl
@[simp] theorem State.accept_draws (s : State) (w : Word) : (s.accept w).draws = s.draws := rfl

/-! ## `State.complete` -/

@[simp] theorem State.complete_cfg (s : State) : (s.complete).cfg = s.cfg := rfl
@[simp] theorem State.complete_status (s : State) : (s.complete).status = { s.status with busy := false } := rfl
@[simp] theorem State.complete_err (s : State) : (s.complete).err = s.err := rfl
@[simp] theorem State.complete_keyLen (s : State) : (s.complete).keyLen = s.keyLen := rfl
@[simp] theorem State.complete_src (s : State) : (s.complete).src = s.src := rfl
@[simp] theorem State.complete_dst (s : State) : (s.complete).dst = s.dst := rfl
@[simp] theorem State.complete_len (s : State) : (s.complete).len = s.len := rfl
@[simp] theorem State.complete_outLen (s : State) : (s.complete).outLen = s.outLen := rfl
@[simp] theorem State.complete_key (s : State) : (s.complete).key = s.key := rfl
@[simp] theorem State.complete_blk (s : State) : (s.complete).blk = s.blk := rfl
@[simp] theorem State.complete_mem (s : State) : (s.complete).mem = s.mem := rfl
@[simp] theorem State.complete_curCmd (s : State) : (s.complete).curCmd = s.curCmd := rfl
@[simp] theorem State.complete_sched (s : State) : (s.complete).sched = s.sched := rfl
@[simp] theorem State.complete_inbox (s : State) : (s.complete).inbox = s.inbox := rfl
@[simp] theorem State.complete_resp (s : State) : (s.complete).resp = s.resp := rfl
@[simp] theorem State.complete_draws (s : State) : (s.complete).draws = s.draws := rfl

/-! ## `State.raise` -/

@[simp] theorem State.raise_cfg (s : State) (e : ErrCode) : (s.raise e).cfg = s.cfg := rfl
@[simp] theorem State.raise_status (s : State) (e : ErrCode) : (s.raise e).status = { s.status with busy := false } := rfl
@[simp] theorem State.raise_err (s : State) (e : ErrCode) : (s.raise e).err = e.code := rfl
@[simp] theorem State.raise_keyLen (s : State) (e : ErrCode) : (s.raise e).keyLen = s.keyLen := rfl
@[simp] theorem State.raise_src (s : State) (e : ErrCode) : (s.raise e).src = s.src := rfl
@[simp] theorem State.raise_dst (s : State) (e : ErrCode) : (s.raise e).dst = s.dst := rfl
@[simp] theorem State.raise_len (s : State) (e : ErrCode) : (s.raise e).len = s.len := rfl
@[simp] theorem State.raise_outLen (s : State) (e : ErrCode) : (s.raise e).outLen = s.outLen := rfl
@[simp] theorem State.raise_key (s : State) (e : ErrCode) : (s.raise e).key = s.key := rfl
@[simp] theorem State.raise_blk (s : State) (e : ErrCode) : (s.raise e).blk = s.blk := rfl
@[simp] theorem State.raise_mem (s : State) (e : ErrCode) : (s.raise e).mem = s.mem := rfl
@[simp] theorem State.raise_curCmd (s : State) (e : ErrCode) : (s.raise e).curCmd = s.curCmd := rfl
@[simp] theorem State.raise_sched (s : State) (e : ErrCode) : (s.raise e).sched = s.sched := rfl
@[simp] theorem State.raise_inbox (s : State) (e : ErrCode) : (s.raise e).inbox = s.inbox := rfl
@[simp] theorem State.raise_resp (s : State) (e : ErrCode) : (s.raise e).resp = s.resp := rfl
@[simp] theorem State.raise_draws (s : State) (e : ErrCode) : (s.raise e).draws = s.draws := rfl

/-! ## `State.setBlk` -/

@[simp] theorem State.setBlk_cfg (s : State) (x : Block) : (s.setBlk x).cfg = s.cfg := rfl
@[simp] theorem State.setBlk_status (s : State) (x : Block) : (s.setBlk x).status = s.status := rfl
@[simp] theorem State.setBlk_err (s : State) (x : Block) : (s.setBlk x).err = s.err := rfl
@[simp] theorem State.setBlk_keyLen (s : State) (x : Block) : (s.setBlk x).keyLen = s.keyLen := rfl
@[simp] theorem State.setBlk_src (s : State) (x : Block) : (s.setBlk x).src = s.src := rfl
@[simp] theorem State.setBlk_dst (s : State) (x : Block) : (s.setBlk x).dst = s.dst := rfl
@[simp] theorem State.setBlk_len (s : State) (x : Block) : (s.setBlk x).len = s.len := rfl
@[simp] theorem State.setBlk_outLen (s : State) (x : Block) : (s.setBlk x).outLen = s.outLen := rfl
@[simp] theorem State.setBlk_key (s : State) (x : Block) : (s.setBlk x).key = s.key := rfl
@[simp] theorem State.setBlk_blk (s : State) (x : Block) : (s.setBlk x).blk = x := rfl
@[simp] theorem State.setBlk_mem (s : State) (x : Block) : (s.setBlk x).mem = s.mem := rfl
@[simp] theorem State.setBlk_curCmd (s : State) (x : Block) : (s.setBlk x).curCmd = s.curCmd := rfl
@[simp] theorem State.setBlk_sched (s : State) (x : Block) : (s.setBlk x).sched = s.sched := rfl
@[simp] theorem State.setBlk_inbox (s : State) (x : Block) : (s.setBlk x).inbox = s.inbox := rfl
@[simp] theorem State.setBlk_resp (s : State) (x : Block) : (s.setBlk x).resp = s.resp := rfl
@[simp] theorem State.setBlk_draws (s : State) (x : Block) : (s.setBlk x).draws = s.draws := rfl

/-! ## `State.setSched` -/

@[simp] theorem State.setSched_cfg (s : State) (sc : Scheduler) : (s.setSched sc).cfg = s.cfg := rfl
@[simp] theorem State.setSched_status (s : State) (sc : Scheduler) : (s.setSched sc).status = s.status := rfl
@[simp] theorem State.setSched_err (s : State) (sc : Scheduler) : (s.setSched sc).err = s.err := rfl
@[simp] theorem State.setSched_keyLen (s : State) (sc : Scheduler) : (s.setSched sc).keyLen = s.keyLen := rfl
@[simp] theorem State.setSched_src (s : State) (sc : Scheduler) : (s.setSched sc).src = s.src := rfl
@[simp] theorem State.setSched_dst (s : State) (sc : Scheduler) : (s.setSched sc).dst = s.dst := rfl
@[simp] theorem State.setSched_len (s : State) (sc : Scheduler) : (s.setSched sc).len = s.len := rfl
@[simp] theorem State.setSched_outLen (s : State) (sc : Scheduler) : (s.setSched sc).outLen = s.outLen := rfl
@[simp] theorem State.setSched_key (s : State) (sc : Scheduler) : (s.setSched sc).key = s.key := rfl
@[simp] theorem State.setSched_blk (s : State) (sc : Scheduler) : (s.setSched sc).blk = s.blk := rfl
@[simp] theorem State.setSched_mem (s : State) (sc : Scheduler) : (s.setSched sc).mem = s.mem := rfl
@[simp] theorem State.setSched_curCmd (s : State) (sc : Scheduler) : (s.setSched sc).curCmd = s.curCmd := rfl
@[simp] theorem State.setSched_sched (s : State) (sc : Scheduler) : (s.setSched sc).sched = sc := rfl
@[simp] theorem State.setSched_inbox (s : State) (sc : Scheduler) : (s.setSched sc).inbox = s.inbox := rfl
@[simp] theorem State.setSched_resp (s : State) (sc : Scheduler) : (s.setSched sc).resp = s.resp := rfl
@[simp] theorem State.setSched_draws (s : State) (sc : Scheduler) : (s.setSched sc).draws = s.draws := rfl

/-! ## `State.storeDst` -/

@[simp] theorem State.storeDst_cfg (s : State) (bs : List Byte) : (s.storeDst bs).cfg = s.cfg := rfl
@[simp] theorem State.storeDst_status (s : State) (bs : List Byte) : (s.storeDst bs).status = s.status := rfl
@[simp] theorem State.storeDst_err (s : State) (bs : List Byte) : (s.storeDst bs).err = s.err := rfl
@[simp] theorem State.storeDst_keyLen (s : State) (bs : List Byte) : (s.storeDst bs).keyLen = s.keyLen := rfl
@[simp] theorem State.storeDst_src (s : State) (bs : List Byte) : (s.storeDst bs).src = s.src := rfl
@[simp] theorem State.storeDst_dst (s : State) (bs : List Byte) : (s.storeDst bs).dst = s.dst := rfl
@[simp] theorem State.storeDst_len (s : State) (bs : List Byte) : (s.storeDst bs).len = s.len := rfl
@[simp] theorem State.storeDst_outLen (s : State) (bs : List Byte) : (s.storeDst bs).outLen = s.outLen := rfl
@[simp] theorem State.storeDst_key (s : State) (bs : List Byte) : (s.storeDst bs).key = s.key := rfl
@[simp] theorem State.storeDst_blk (s : State) (bs : List Byte) : (s.storeDst bs).blk = s.blk := rfl
@[simp] theorem State.storeDst_mem (s : State) (bs : List Byte) : (s.storeDst bs).mem = Memory.writeBytes s.mem s.dst.toNat bs := rfl
@[simp] theorem State.storeDst_curCmd (s : State) (bs : List Byte) : (s.storeDst bs).curCmd = s.curCmd := rfl
@[simp] theorem State.storeDst_sched (s : State) (bs : List Byte) : (s.storeDst bs).sched = s.sched := rfl
@[simp] theorem State.storeDst_inbox (s : State) (bs : List Byte) : (s.storeDst bs).inbox = s.inbox := rfl
@[simp] theorem State.storeDst_resp (s : State) (bs : List Byte) : (s.storeDst bs).resp = s.resp := rfl
@[simp] theorem State.storeDst_draws (s : State) (bs : List Byte) : (s.storeDst bs).draws = s.draws := rfl

/-! ## `State.setOutLen` -/

@[simp] theorem State.setOutLen_cfg (s : State) (n : Nat) : (s.setOutLen n).cfg = s.cfg := rfl
@[simp] theorem State.setOutLen_status (s : State) (n : Nat) : (s.setOutLen n).status = s.status := rfl
@[simp] theorem State.setOutLen_err (s : State) (n : Nat) : (s.setOutLen n).err = s.err := rfl
@[simp] theorem State.setOutLen_keyLen (s : State) (n : Nat) : (s.setOutLen n).keyLen = s.keyLen := rfl
@[simp] theorem State.setOutLen_src (s : State) (n : Nat) : (s.setOutLen n).src = s.src := rfl
@[simp] theorem State.setOutLen_dst (s : State) (n : Nat) : (s.setOutLen n).dst = s.dst := rfl
@[simp] theorem State.setOutLen_len (s : State) (n : Nat) : (s.setOutLen n).len = s.len := rfl
@[simp] theorem State.setOutLen_outLen (s : State) (n : Nat) : (s.setOutLen n).outLen = BitVec.ofNat 17 n := rfl
@[simp] theorem State.setOutLen_key (s : State) (n : Nat) : (s.setOutLen n).key = s.key := rfl
@[simp] theorem State.setOutLen_blk (s : State) (n : Nat) : (s.setOutLen n).blk = s.blk := rfl
@[simp] theorem State.setOutLen_mem (s : State) (n : Nat) : (s.setOutLen n).mem = s.mem := rfl
@[simp] theorem State.setOutLen_curCmd (s : State) (n : Nat) : (s.setOutLen n).curCmd = s.curCmd := rfl
@[simp] theorem State.setOutLen_sched (s : State) (n : Nat) : (s.setOutLen n).sched = s.sched := rfl
@[simp] theorem State.setOutLen_inbox (s : State) (n : Nat) : (s.setOutLen n).inbox = s.inbox := rfl
@[simp] theorem State.setOutLen_resp (s : State) (n : Nat) : (s.setOutLen n).resp = s.resp := rfl
@[simp] theorem State.setOutLen_draws (s : State) (n : Nat) : (s.setOutLen n).draws = s.draws := rfl

/-! ## `State.respond` -/

@[simp] theorem State.respond_cfg (s : State) (r : Response) : (s.respond r).cfg = s.cfg := rfl
@[simp] theorem State.respond_status (s : State) (r : Response) : (s.respond r).status = s.status := rfl
@[simp] theorem State.respond_err (s : State) (r : Response) : (s.respond r).err = s.err := rfl
@[simp] theorem State.respond_keyLen (s : State) (r : Response) : (s.respond r).keyLen = s.keyLen := rfl
@[simp] theorem State.respond_src (s : State) (r : Response) : (s.respond r).src = s.src := rfl
@[simp] theorem State.respond_dst (s : State) (r : Response) : (s.respond r).dst = s.dst := rfl
@[simp] theorem State.respond_len (s : State) (r : Response) : (s.respond r).len = s.len := rfl
@[simp] theorem State.respond_outLen (s : State) (r : Response) : (s.respond r).outLen = s.outLen := rfl
@[simp] theorem State.respond_key (s : State) (r : Response) : (s.respond r).key = s.key := rfl
@[simp] theorem State.respond_blk (s : State) (r : Response) : (s.respond r).blk = s.blk := rfl
@[simp] theorem State.respond_mem (s : State) (r : Response) : (s.respond r).mem = s.mem := rfl
@[simp] theorem State.respond_curCmd (s : State) (r : Response) : (s.respond r).curCmd = s.curCmd := rfl
@[simp] theorem State.respond_sched (s : State) (r : Response) : (s.respond r).sched = s.sched := rfl
@[simp] theorem State.respond_inbox (s : State) (r : Response) : (s.respond r).inbox = s.inbox := rfl
@[simp] theorem State.respond_resp (s : State) (r : Response) : (s.respond r).resp = r := rfl
@[simp] theorem State.respond_draws (s : State) (r : Response) : (s.respond r).draws = s.draws := rfl

/-! ## `State.drawn` -/

@[simp] theorem State.drawn_cfg (s : State) : (s.drawn).cfg = s.cfg := rfl
@[simp] theorem State.drawn_status (s : State) : (s.drawn).status = s.status := rfl
@[simp] theorem State.drawn_err (s : State) : (s.drawn).err = s.err := rfl
@[simp] theorem State.drawn_keyLen (s : State) : (s.drawn).keyLen = s.keyLen := rfl
@[simp] theorem State.drawn_src (s : State) : (s.drawn).src = s.src := rfl
@[simp] theorem State.drawn_dst (s : State) : (s.drawn).dst = s.dst := rfl
@[simp] theorem State.drawn_len (s : State) : (s.drawn).len = s.len := rfl
@[simp] theorem State.drawn_outLen (s : State) : (s.drawn).outLen = s.outLen := rfl
@[simp] theorem State.drawn_key (s : State) : (s.drawn).key = s.key := rfl
@[simp] theorem State.drawn_blk (s : State) : (s.drawn).blk = s.blk := rfl
@[simp] theorem State.drawn_mem (s : State) : (s.drawn).mem = s.mem := rfl
@[simp] theorem State.drawn_curCmd (s : State) : (s.drawn).curCmd = s.curCmd := rfl
@[simp] theorem State.drawn_sched (s : State) : (s.drawn).sched = s.sched := rfl
@[simp] theorem State.drawn_inbox (s : State) : (s.drawn).inbox = s.inbox := rfl
@[simp] theorem State.drawn_resp (s : State) : (s.drawn).resp = s.resp := rfl
@[simp] theorem State.drawn_draws (s : State) : (s.drawn).draws = s.draws + 1 := rfl

/-! ## `State.popInbox` -/

@[simp] theorem State.popInbox_cfg (s : State) : (s.popInbox).cfg = s.cfg := rfl
@[simp] theorem State.popInbox_status (s : State) : (s.popInbox).status = s.status := rfl
@[simp] theorem State.popInbox_err (s : State) : (s.popInbox).err = s.err := rfl
@[simp] theorem State.popInbox_keyLen (s : State) : (s.popInbox).keyLen = s.keyLen := rfl
@[simp] theorem State.popInbox_src (s : State) : (s.popInbox).src = s.src := rfl
@[simp] theorem State.popInbox_dst (s : State) : (s.popInbox).dst = s.dst := rfl
@[simp] theorem State.popInbox_len (s : State) : (s.popInbox).len = s.len := rfl
@[simp] theorem State.popInbox_outLen (s : State) : (s.popInbox).outLen = s.outLen := rfl
@[simp] theorem State.popInbox_key (s : State) : (s.popInbox).key = s.key := rfl
@[simp] theorem State.popInbox_blk (s : State) : (s.popInbox).blk = s.blk := rfl
@[simp] theorem State.popInbox_mem (s : State) : (s.popInbox).mem = s.mem := rfl
@[simp] theorem State.popInbox_curCmd (s : State) : (s.popInbox).curCmd = s.curCmd := rfl
@[simp] theorem State.popInbox_sched (s : State) : (s.popInbox).sched = s.sched := rfl
@[simp] theorem State.popInbox_inbox (s : State) : (s.popInbox).inbox = s.inbox.tail := rfl
@[simp] theorem State.popInbox_resp (s : State) : (s.popInbox).resp = s.resp := rfl
@[simp] theorem State.popInbox_draws (s : State) : (s.popInbox).draws = s.draws := rfl

end Sys2Proof.Machine
end

