-- ==== Sys2Proof/Laws/Commands.lean ====
section
/-! SUPPORT. What the shared checks and the commands can do, said once: the checks of R109 and R136, the front of a
message command, and the inversion lemma of `exec`, from which the invariants follow. -/

namespace Sys2Proof.Machine

/-! ## The checks -/

theorem withKeyCheck_of_eq {s : State} {body : Result} (h : s.keyLen = 16) : withKeyCheck s body = body := if_pos h

theorem withKeyCheck_of_ne {s : State} {body : Result} (h : s.keyLen ≠ 16) :
    withKeyCheck s body = .next (s.raise .keyLength) := if_neg h

/-- Both checks of R136 pass exactly when the ranges are legal. -/
theorem rangeCheck_eq_none_iff (s : State) (n d : Nat) : rangeCheck s n d = none ↔ s.RangesLegal n d := by
  have hsd : s.src = s.dst ↔ s.src.toNat = s.dst.toNat :=
    ⟨fun h => by rw [h], fun h => BitVec.eq_of_toNat_eq h⟩
  simp only [rangeCheck, State.RangesLegal, hsd]
  split_ifs with h₁ h₂
  · exact iff_of_false nofun (by omega)
  · exact iff_of_false nofun (by omega)
  · exact iff_of_true rfl (by omega)

/-- The range check comes first (R136). -/
theorem rangeCheck_eq_range_iff (s : State) (n d : Nat) :
    rangeCheck s n d = some .range ↔ s.src.toNat + n > s.cfg.memBytes ∨ s.dst.toNat + d > s.cfg.memBytes := by
  simp only [rangeCheck]
  split_ifs with h₁ h₂ <;> simp [h₁]

/-- The overlap check, once the range check has passed (R136). -/
theorem rangeCheck_eq_overlap_iff (s : State) (n d : Nat) :
    rangeCheck s n d = some .overlap ↔
      s.src.toNat + n ≤ s.cfg.memBytes ∧ s.dst.toNat + d ≤ s.cfg.memBytes ∧ 0 < n ∧ 0 < d ∧
        s.src.toNat ≠ s.dst.toNat ∧ s.src.toNat < s.dst.toNat + d ∧ s.dst.toNat < s.src.toNat + n := by
  simp only [rangeCheck]
  split_ifs with h₁ h₂
  · exact iff_of_false nofun (by omega)
  · exact iff_of_true rfl (by omega)
  · exact iff_of_false nofun (by omega)

/-- The front of a message command whose ranges are legal and whose source holds `m`. -/
theorem withSource_of_holds {s : State} {n d : Nat} {body : List Byte → Result} {m : List Byte}
    (hr : s.RangesLegal n d) (hm : m.length = n) (hs : s.Holds s.src.toNat m) : withSource s n d body = body m := by
  have h₁ := (rangeCheck_eq_none_iff s n d).2 hr
  have h₂ := (Memory.readBytes_eq_some_iff s.mem s.src.toNat n m).2 ⟨hm, hs⟩
  simp only [withSource, h₁, h₂]

/-- The front of a message command says once what it can answer: the error of its check, the fault of an unwritten
source byte, or what the body answers for the bytes of the source range. -/
theorem withSource_cases (s : State) (n d : Nat) (body : List Byte → Result) :
    (∃ e, rangeCheck s n d = some e ∧ withSource s n d body = .next (s.raise e)) ∨
    (s.RangesLegal n d ∧ ¬s.Written s.src.toNat n ∧ withSource s n d body = .fault .unwrittenRead) ∨
    (∃ m, s.RangesLegal n d ∧ m.length = n ∧ s.Holds s.src.toNat m ∧ withSource s n d body = body m) := by
  cases hc : rangeCheck s n d with
  | some e => exact .inl ⟨e, rfl, by simp only [withSource, hc]⟩
  | none =>
    have hr := (rangeCheck_eq_none_iff s n d).1 hc
    cases hm : Memory.readBytes s.mem s.src.toNat n with
    | none =>
      refine .inr (.inl ⟨hr, fun hw => ?_, by simp only [withSource, hc, hm]⟩)
      obtain ⟨j, hj, h⟩ := (Memory.readBytes_eq_none_iff ..).1 hm
      simpa [h] using hw j hj
    | some m =>
      obtain ⟨h₁, h₂⟩ := (Memory.readBytes_eq_some_iff ..).1 hm
      exact .inr (.inr ⟨m, hr, h₁, h₂, by simp only [withSource, hc, hm]⟩)

/-! ## The scheduler's round counter (R38) -/

theorem Scheduler.encrypt_rnd (g : PermGen) (K : Block) (sc : Scheduler) (x : Block) :
    (sc.encrypt g K x).rnd = 15 := rfl

theorem Scheduler.decrypt_rnd (g : PermGen) (K : Block) (sc : Scheduler) (x : Block) :
    (sc.decrypt g K x).rnd = 0 := rfl

/-- The assembler keeps any property of the internal registers that every block run leaves. -/
theorem Scheduler.assemble_keeps {run : Scheduler → Block → Scheduler} {P : Scheduler → Prop}
    (hrun : ∀ sc b, P (run sc b)) (q : Nat) (bs : List Block) {sc : Scheduler} (h : P sc) :
    P (Scheduler.assemble run q bs sc).2 := by
  induction bs generalizing q sc with
  | nil => exact h
  | cons b bs ih => exact ih _ (hrun _ b)

theorem Scheduler.encryptBytes_rnd (g : PermGen) (K : Block) (sc : Scheduler) (p : List Byte)
    (h : sc.rnd.toNat < 16) : (sc.encryptBytes g K p).2.rnd.toNat < 16 :=
  Scheduler.assemble_keeps (P := fun sc => sc.rnd.toNat < 16)
    (fun sc b => by rw [Scheduler.encrypt_rnd]; decide) _ _ h

theorem Scheduler.decryptBytes_rnd (g : PermGen) (K : Block) (sc : Scheduler) (c : List Byte)
    (h : sc.rnd.toNat < 16) : (sc.decryptBytes g K c).2.rnd.toNat < 16 :=
  Scheduler.assemble_keeps (P := fun sc => sc.rnd.toNat < 16)
    (fun sc b => by rw [Scheduler.decrypt_rnd]; decide) _ _ h

/-! ## The commands -/

@[simp] theorem State.setSched_self (s : State) : s.setSched s.sched = s := rfl

/-- `sc` is what a command may leave in the internal registers of `s`: the round counter stays legal. -/
def State.MayLeave (s : State) (sc : Scheduler) : Prop := s.sched.rnd.toNat < 16 → sc.rnd.toNat < 16

/-! The equation of each command whose checks pass. A layer command has none, and its equation is true by `rfl`. -/

theorem exec_rndf_of_key {s : State} (hk : s.keyLen = 16) (r : Fin 16) :
    exec (.rndf r) s = .next (s.setBlk (roundFwd s.cfg.permGen s.blk s.key[r])).complete := by
  simp only [exec, execRndf, withKeyCheck_of_eq hk]

theorem exec_rndi_of_key {s : State} (hk : s.keyLen = 16) (r : Fin 16) :
    exec (.rndi r) s = .next (s.setBlk (roundInv s.cfg.permGen s.blk s.key[r])).complete := by
  simp only [exec, execRndi, withKeyCheck_of_eq hk]

theorem exec_encb_of_key {s : State} (hk : s.keyLen = 16) :
    exec .encb s = .next ((s.setBlk (encryptBlock s.cfg.permGen s.blk s.key)).setSched
      (s.sched.encrypt s.cfg.permGen s.key s.blk)).complete := by
  simp only [exec, execEncb, withKeyCheck_of_eq hk]

theorem exec_decb_of_key {s : State} (hk : s.keyLen = 16) :
    exec .decb s = .next ((s.setBlk (decryptBlock s.cfg.permGen s.blk s.key)).setSched
      (s.sched.decrypt s.cfg.permGen s.key s.blk)).complete := by
  simp only [exec, execDecb, withKeyCheck_of_eq hk]

theorem exec_pad_of_holds {s : State} {m : List Byte} (hr : s.RangesLegal s.len.toNat (paddedLen s.len.toNat))
    (hm : m.length = s.len.toNat) (hs : s.Holds s.src.toNat m) :
    exec .pad s = .next ((s.storeDst (pad m)).setOutLen (paddedLen s.len.toNat)).complete := by
  simp only [exec, execPad, withSource_of_holds hr hm hs]

theorem exec_unpad_of_holds {s : State} {m : List Byte} (hr : s.RangesLegal s.len.toNat s.len.toNat)
    (hm : m.length = s.len.toNat) (hs : s.Holds s.src.toNat m) :
    exec .unpad s = match unpad m with
      | none => .next (s.raise .padding)
      | some u => .next ((s.storeDst u).setOutLen u.length).complete := by
  refine (withSource_of_holds (body := fun bs => match unpad bs with
    | none => .next (s.raise .padding)
    | some u => .next ((s.storeDst u).setOutLen u.length).complete) hr hm hs).trans ?_
  cases unpad m <;> rfl

theorem exec_enc_of_holds {s : State} {m : List Byte} (hk : s.keyLen = 16)
    (hr : s.RangesLegal s.len.toNat (paddedLen s.len.toNat)) (hm : m.length = s.len.toNat)
    (hs : s.Holds s.src.toNat m) :
    exec .enc s = .next (((s.storeDst (ecbEncrypt s.cfg.permGen m s.key)).setSched
      (s.sched.encryptBytes s.cfg.permGen s.key (pad m)).2).setOutLen (paddedLen s.len.toNat)).complete := by
  simp only [exec, execEnc, withKeyCheck_of_eq hk, withSource_of_holds hr hm hs]

theorem exec_dec_of_holds {s : State} {c : List Byte} (hk : s.keyLen = 16) (h0 : s.len.toNat ≠ 0)
    (h16 : s.len.toNat % 16 = 0) (hr : s.RangesLegal s.len.toNat s.len.toNat) (hc : c.length = s.len.toNat)
    (hs : s.Holds s.src.toNat c) :
    exec .dec s =
      let p := ecbDecryptRaw s.cfg.permGen c s.key
      let s' := (s.storeDst p).setSched (s.sched.decryptBytes s.cfg.permGen s.key c).2
      match unpad p with
      | none => .next (s'.raise .padding)
      | some u => .next (s'.setOutLen u.length).complete := by
  have hl : ¬(s.len.toNat = 0 ∨ s.len.toNat % 16 ≠ 0) := by omega
  show execDec s = _
  unfold execDec
  rw [withKeyCheck_of_eq hk, if_neg hl]
  refine (withSource_of_holds hr hc hs).trans ?_
  generalize ecbDecryptRaw s.cfg.permGen c s.key = p
  cases unpad p <;> rfl

/-- The three ways a command ends in a next state: an error before any write (R157); a new `BLK` (R105, R120); or, for
a message command, bytes in the destination range and a new `OUT_LEN`, or, for `DEC`, bytes and `ERR_PADDING`
(R144, R149). -/
theorem exec_cases {i : Instr} {s t : State} (h : exec i s = .next t) :
    (∃ e, t = s.raise e) ∨
    (∃ x sc, messageRanges i s = none ∧ s.MayLeave sc ∧ t = ((s.setBlk x).setSched sc).complete) ∨
    (∃ n d bs sc, messageRanges i s = some (⟨s.src.toNat, n⟩, ⟨s.dst.toNat, d⟩) ∧ s.RangesLegal n d ∧
      bs.length ≤ d ∧ s.MayLeave sc ∧
      ((∃ k, k ≤ d ∧ t = (((s.storeDst bs).setSched sc).setOutLen k).complete) ∨
        i = .dec ∧ t = ((s.storeDst bs).setSched sc).raise .padding)) := by
  have hself : s.MayLeave s.sched := id
  have key : ∀ {body : Result}, withKeyCheck s body = .next t → body = .next t ∨ ∃ e, t = s.raise e := by
    intro body hb
    by_cases hk : s.keyLen = 16
    · rw [withKeyCheck_of_eq hk] at hb; exact .inl hb
    · rw [withKeyCheck_of_ne hk] at hb; cases hb; exact .inr ⟨_, rfl⟩
  have layer : ∀ x, messageRanges i s = none → Host.Outcome.next (ρ := Refusal) (φ := Fault) (s.setBlk x).complete = .next t →
      ∃ x sc, messageRanges i s = none ∧ s.MayLeave sc ∧ t = ((s.setBlk x).setSched sc).complete := by
    intro x hi hx; cases hx; exact ⟨x, s.sched, hi, hself, rfl⟩
  cases i with
  | subf k => exact .inr (.inl (layer _ rfl h))
  | subi k => exact .inr (.inl (layer _ rfl h))
  | perf k => exact .inr (.inl (layer _ rfl h))
  | peri k => exact .inr (.inl (layer _ rfl h))
  | mix k => exact .inr (.inl (layer _ rfl h))
  | rndf r =>
    rcases key h with h | h
    · exact .inr (.inl (layer _ rfl h))
    · exact .inl h
  | rndi r =>
    rcases key h with h | h
    · exact .inr (.inl (layer _ rfl h))
    · exact .inl h
  | encb =>
    rcases key h with h | h
    · cases h
      exact .inr (.inl ⟨_, _, rfl, fun _ => by rw [Scheduler.encrypt_rnd]; decide, rfl⟩)
    · exact .inl h
  | decb =>
    rcases key h with h | h
    · cases h
      exact .inr (.inl ⟨_, _, rfl, fun _ => by rw [Scheduler.decrypt_rnd]; decide, rfl⟩)
    · exact .inl h
  | pad =>
    rcases withSource_cases s s.len.toNat (paddedLen s.len.toNat)
      (fun m => .next ((s.storeDst (pad m)).setOutLen (paddedLen s.len.toNat)).complete) with
      ⟨e, -, he⟩ | ⟨-, -, he⟩ | ⟨m, hr, hm, -, he⟩
    · exact .inl ⟨e, Host.Outcome.next.inj (h.symm.trans he)⟩
    · exact absurd (h.symm.trans he) (by simp)
    · obtain rfl := Host.Outcome.next.inj (h.symm.trans he)
      exact .inr (.inr ⟨_, _, pad m, s.sched, rfl, hr, by rw [length_pad, hm]; rfl, hself,
        .inl ⟨_, Nat.le_refl _, rfl⟩⟩)
  | unpad =>
    rcases withSource_cases s s.len.toNat s.len.toNat (fun bs => match unpad bs with
      | none => .next (s.raise .padding)
      | some u => .next ((s.storeDst u).setOutLen u.length).complete) with
      ⟨e, -, he⟩ | ⟨-, -, he⟩ | ⟨m, hr, hm, -, he⟩
    · exact .inl ⟨e, Host.Outcome.next.inj (h.symm.trans he)⟩
    · exact absurd (h.symm.trans he) (by simp)
    · cases hu : unpad m with
      | none =>
        rw [hu] at he
        exact .inl ⟨_, Host.Outcome.next.inj (h.symm.trans he)⟩
      | some u =>
        rw [hu] at he
        obtain rfl := Host.Outcome.next.inj (h.symm.trans he)
        have hl := (unpad_length hu).1
        exact .inr (.inr ⟨_, _, u, s.sched, rfl, hr, by omega, hself, .inl ⟨u.length, by omega, rfl⟩⟩)
  | enc =>
    rcases key h with h | h
    · rcases withSource_cases s s.len.toNat (paddedLen s.len.toNat)
        (fun m => .next (((s.storeDst (ecbEncrypt s.cfg.permGen m s.key)).setSched
          (s.sched.encryptBytes s.cfg.permGen s.key (pad m)).2).setOutLen (paddedLen s.len.toNat)).complete) with
        ⟨e, -, he⟩ | ⟨-, -, he⟩ | ⟨m, hr, hm, -, he⟩
      · exact .inl ⟨e, Host.Outcome.next.inj (h.symm.trans he)⟩
      · exact absurd (h.symm.trans he) (by simp)
      · obtain rfl := Host.Outcome.next.inj (h.symm.trans he)
        exact .inr (.inr ⟨_, _, ecbEncrypt s.cfg.permGen m s.key, _, rfl, hr,
          by rw [length_ecbEncrypt, hm]; rfl, Scheduler.encryptBytes_rnd _ _ _ _, .inl ⟨_, Nat.le_refl _, rfl⟩⟩)
    · exact .inl h
  | dec =>
    rcases key h with h | h
    · by_cases hl : s.len.toNat = 0 ∨ s.len.toNat % 16 ≠ 0
      · rw [if_pos hl] at h
        exact .inl ⟨_, (Host.Outcome.next.inj h).symm⟩
      · rw [if_neg hl] at h
        rcases withSource_cases s s.len.toNat s.len.toNat (fun c =>
          match unpad (ecbDecryptRaw s.cfg.permGen c s.key) with
          | none => .next (((s.storeDst (ecbDecryptRaw s.cfg.permGen c s.key)).setSched
              (s.sched.decryptBytes s.cfg.permGen s.key c).2).raise .padding)
          | some u => .next (((s.storeDst (ecbDecryptRaw s.cfg.permGen c s.key)).setSched
              (s.sched.decryptBytes s.cfg.permGen s.key c).2).setOutLen u.length).complete) with
          ⟨e, -, he⟩ | ⟨-, -, he⟩ | ⟨c, hr, hc, -, he⟩
        · exact .inl ⟨e, Host.Outcome.next.inj (h.symm.trans he)⟩
        · exact absurd (h.symm.trans he) (by simp)
        · have hlen : (ecbDecryptRaw s.cfg.permGen c s.key).length ≤ s.len.toNat := by
            rw [length_ecbDecryptRaw]; omega
          refine .inr (.inr ⟨_, _, ecbDecryptRaw s.cfg.permGen c s.key, _, rfl, hr, hlen,
            Scheduler.decryptBytes_rnd s.cfg.permGen s.key s.sched c, ?_⟩)
          cases hu : unpad (ecbDecryptRaw s.cfg.permGen c s.key) with
          | none =>
            rw [hu] at he
            exact .inr ⟨rfl, Host.Outcome.next.inj (h.symm.trans he)⟩
          | some u =>
            rw [hu] at he
            have := (unpad_length hu).1
            exact .inl ⟨u.length, by omega, Host.Outcome.next.inj (h.symm.trans he)⟩
    · exact .inl h

/-- The only fault of a command is the read of a byte without a value (R56), and no command is refused. -/
theorem exec_total (i : Instr) (s : State) : (∃ t, exec i s = .next t) ∨ exec i s = .fault .unwrittenRead := by
  have key : ∀ {body : Result}, ((∃ t, body = .next t) ∨ body = .fault .unwrittenRead) →
      (∃ t, withKeyCheck s body = .next t) ∨ withKeyCheck s body = .fault .unwrittenRead := by
    intro body hb
    by_cases hk : s.keyLen = 16
    · rwa [withKeyCheck_of_eq hk]
    · exact .inl ⟨_, withKeyCheck_of_ne hk⟩
  have source : ∀ {n d : Nat} {body : List Byte → Result}, (∀ m, ∃ t, body m = .next t) →
      (∃ t, withSource s n d body = .next t) ∨ withSource s n d body = .fault .unwrittenRead := by
    intro n d body hb
    rcases withSource_cases s n d body with ⟨e, -, he⟩ | ⟨-, -, he⟩ | ⟨m, -, -, -, he⟩
    · exact .inl ⟨_, he⟩
    · exact .inr he
    · exact .inl ((hb m).imp fun t ht => he.trans ht)
  cases i with
  | subf k => exact .inl ⟨_, rfl⟩
  | subi k => exact .inl ⟨_, rfl⟩
  | perf k => exact .inl ⟨_, rfl⟩
  | peri k => exact .inl ⟨_, rfl⟩
  | mix k => exact .inl ⟨_, rfl⟩
  | rndf r => exact key (.inl ⟨_, rfl⟩)
  | rndi r => exact key (.inl ⟨_, rfl⟩)
  | encb => exact key (.inl ⟨_, rfl⟩)
  | decb => exact key (.inl ⟨_, rfl⟩)
  | pad => exact source fun m => ⟨_, rfl⟩
  | unpad =>
    exact source fun m => by
      cases unpad m with
      | none => exact ⟨_, rfl⟩
      | some u => exact ⟨_, rfl⟩
  | enc => exact key (source fun m => ⟨_, rfl⟩)
  | dec =>
    refine key ?_
    split_ifs
    · exact .inl ⟨_, rfl⟩
    · refine source fun c => ?_
      dsimp only
      cases unpad (ecbDecryptRaw s.cfg.permGen c s.key) with
      | none => exact ⟨_, rfl⟩
      | some u => exact ⟨_, rfl⟩

/-! ## Two runs of a command -/

/-- Two outcomes of the same kind, with related next states or the same reason to stop. -/
def OutcomeRel (R : State → State → Prop) : Result → Result → Prop
  | .next t, .next t' => R t t'
  | .fault e, .fault e' => e = e'
  | .refused e, .refused e' => e = e'
  | _, _ => False

/-- The front of a message command in two states that agree on its operands and on the bytes of its source. -/
theorem withSource_rel {R : State → State → Prop} {s s' : State} {n n' d d' : Nat} {body body' : List Byte → Result}
    (hcfg : s.cfg = s'.cfg) (hsrc : s.src = s'.src) (hdst : s.dst = s'.dst) (hn : n = n') (hd : d = d')
    (hread : Memory.readBytes s.mem s.src.toNat n = Memory.readBytes s'.mem s.src.toNat n)
    (raise : ∀ e, R (s.raise e) (s'.raise e)) (hbody : ∀ m, OutcomeRel R (body m) (body' m)) :
    OutcomeRel R (withSource s n d body) (withSource s' n' d' body') := by
  subst hn hd
  have hc : rangeCheck s' n d = rangeCheck s n d := by simp only [rangeCheck, hcfg, hsrc, hdst]
  simp only [withSource, hc, ← hsrc, ← hread]
  cases rangeCheck s n d with
  | some e => exact raise e
  | none =>
    cases Memory.readBytes s.mem s.src.toNat n with
    | none => rfl
    | some m => exact hbody m

/-- What a command depends on, said once. In two states that agree on the parameters and the operand registers, on the
block (for a command that reads it) and on the bytes of the source range (for a command that reads them), a command
makes the same update; so its outcomes are related by any relation that these updates respect. -/
theorem exec_rel {R : State → State → Prop} {i : Instr} {s s' : State}
    (hcfg : s.cfg = s'.cfg) (hkl : s.keyLen = s'.keyLen) (hkey : s.key = s'.key) (hsrc : s.src = s'.src)
    (hdst : s.dst = s'.dst) (hlen : s.len = s'.len) (hblk : messageRanges i s = none → s.blk = s'.blk)
    (hread : messageRanges i s ≠ none →
      Memory.readBytes s.mem s.src.toNat s.len.toNat = Memory.readBytes s'.mem s.src.toNat s.len.toNat)
    (raise : ∀ e, R (s.raise e) (s'.raise e))
    (block : ∀ x sc sc', messageRanges i s = none → (s.sched = s'.sched → sc = sc') →
      R ((s.setBlk x).setSched sc).complete ((s'.setBlk x).setSched sc').complete)
    (message : ∀ bs k sc sc', messageRanges i s ≠ none → (s.sched = s'.sched → sc = sc') →
      R (((s.storeDst bs).setSched sc).setOutLen k).complete (((s'.storeDst bs).setSched sc').setOutLen k).complete)
    (failed : ∀ bs sc sc', i = .dec → (s.sched = s'.sched → sc = sc') →
      R (((s.storeDst bs).setSched sc).raise .padding) (((s'.storeDst bs).setSched sc').raise .padding)) :
    OutcomeRel R (exec i s) (exec i s') := by
  have key : ∀ {body body' : Result}, OutcomeRel R body body' →
      OutcomeRel R (withKeyCheck s body) (withKeyCheck s' body') := by
    intro b b' h
    simp only [withKeyCheck, ← hkl]
    split_ifs
    · exact h
    · exact raise _
  have layer : ∀ x x', messageRanges i s = none → x = x' →
      OutcomeRel R (.next (s.setBlk x).complete) (.next (s'.setBlk x').complete) := by
    rintro x _ hi rfl
    exact block x s.sched s'.sched hi id
  cases i with
  | subf k =>
    exact layer _ _ rfl (by rw [hblk rfl])
  | subi k => exact layer _ _ rfl (by rw [hblk rfl])
  | perf k => exact layer _ _ rfl (by rw [hblk rfl, hcfg])
  | peri k => exact layer _ _ rfl (by rw [hblk rfl, hcfg])
  | mix k => exact layer _ _ rfl (by rw [hblk rfl])
  | rndf r => exact key (layer _ _ rfl (by rw [hblk rfl, hcfg, hkey]))
  | rndi r => exact key (layer _ _ rfl (by rw [hblk rfl, hcfg, hkey]))
  | encb =>
    refine key ?_
    rw [← hblk rfl, ← hcfg, ← hkey]
    exact block _ _ _ rfl fun h => by rw [h]
  | decb =>
    refine key ?_
    rw [← hblk rfl, ← hcfg, ← hkey]
    exact block _ _ _ rfl fun h => by rw [h]
  | pad =>
    have hp : messageRanges .pad s ≠ none := nofun
    have hd : paddedLen s.len.toNat = paddedLen s'.len.toNat := by rw [hlen]
    refine withSource_rel hcfg hsrc hdst (by rw [hlen]) hd (hread hp) raise fun m => ?_
    rw [← hd]
    exact message _ _ s.sched s'.sched hp id
  | unpad =>
    have hp : messageRanges .unpad s ≠ none := nofun
    refine withSource_rel hcfg hsrc hdst (by rw [hlen]) (by rw [hlen]) (hread hp) raise fun m => ?_
    cases unpad m with
    | none => exact raise _
    | some u => exact message _ _ s.sched s'.sched hp id
  | enc =>
    have hp : messageRanges .enc s ≠ none := nofun
    have hd : paddedLen s.len.toNat = paddedLen s'.len.toNat := by rw [hlen]
    refine key (withSource_rel hcfg hsrc hdst (by rw [hlen]) hd (hread hp) raise fun m => ?_)
    rw [← hd, ← hcfg, ← hkey]
    exact message _ _ _ _ hp fun h => by rw [h]
  | dec =>
    have hp : messageRanges .dec s ≠ none := nofun
    refine key ?_
    rw [← hlen]
    split_ifs
    · exact raise _
    · refine withSource_rel hcfg hsrc hdst rfl rfl (hread hp) raise fun c => ?_
      dsimp only
      rw [← hcfg, ← hkey]
      cases unpad (ecbDecryptRaw s.cfg.permGen c s.key) with
      | none => exact failed _ _ _ rfl fun h => by rw [h]
      | some u => exact message _ _ _ _ hp fun h => by rw [h]

end Sys2Proof.Machine
end

