-- ==== Sys2Proof/Laws/Ports.lean ====
section
/-! SUPPORT. What the host's accesses, the core's turn, reset and a step can do, said once: inversion lemmas from which
the whole-machine rules follow. -/

namespace Sys2Proof.Machine

/-! ## The register map (R21) -/

/-- An offset names at most one register, and each register has one offset. -/
theorem Reg.ofOffset_eq_some_iff (o : Nat) (r : Reg) : Reg.ofOffset o = some r ↔ o = r.offset := by
  constructor
  · intro h
    unfold Reg.ofOffset at h
    split at h <;> cases h <;> rfl
  · rintro rfl
    cases r with
    | keyWord w => revert w; decide
    | blkWord w => revert w; decide
    | id | cmd | status | err | keyLen | src | dst | len | outLen => rfl

@[simp] theorem Reg.ofOffset_offset (r : Reg) : Reg.ofOffset r.offset = some r := (Reg.ofOffset_eq_some_iff _ _).2 rfl

/-- An offset no register has is unmapped. -/
theorem Reg.ofOffset_eq_none_iff (o : Nat) : Reg.ofOffset o = none ↔ ∀ r : Reg, r.offset ≠ o := by
  constructor
  · rintro h r rfl
    simp at h
  · intro h
    cases hr : Reg.ofOffset o with
    | none => rfl
    | some r => exact absurd ((Reg.ofOffset_eq_some_iff o r).1 hr).symm (h r)

@[simp] theorem portAccepts_offset (r : Reg) : portAccepts r.offset .w32 = true := by
  cases r with
  | keyWord w => revert w; decide
  | blkWord w => revert w; decide
  | id | cmd | status | err | keyLen | src | dst | len | outLen => rfl

theorem portAccepts_eq_true_iff (o : Nat) (w : AccessWidth) : portAccepts o w = true ↔ w = .w32 ∧ o % 4 = 0 := by
  simp [portAccepts]

/-- A register write through the port is `writeReg`. -/
theorem hostAccess_regWrite (s : State) (r : Reg) (v : Word) :
    hostAccess (.regWrite r.offset .w32 v) s = .next ((writeReg s r v).respond .taken) := by
  simp [hostAccess, writeOffset]

/-- A register read through the port is `readReg`. -/
theorem hostAccess_regRead (s : State) (r : Reg) :
    hostAccess (.regRead r.offset .w32) s = .next (readReg s r) := by
  simp [hostAccess, readOffset]

/-! ## Accesses -/

/-- A register read changes the port's answer and the draw counter only (R59). -/
theorem readReg_frame (s : State) (r : Reg) :
    readReg s r = { s with resp := (readReg s r).resp, draws := (readReg s r).draws } := by
  cases r with
  | blkWord w =>
    simp only [readReg]
    split_ifs <;> rfl
  | id | cmd | status | err | keyLen | src | dst | len | outLen | keyWord => rfl

/-! ## The memory port (R52, R63) -/

/-- While idle no command runs, so no byte is in a running range. -/
theorem runningRanges_of_idle {s : State} (h : s.status.busy = false) : runningRanges s = none := by
  simp [runningRanges, h]

theorem inRunningDst_eq_false_iff (s : State) (a : Nat) :
    inRunningDst s a = false ↔ ∀ src dst, runningRanges s = some (src, dst) → dst.has a = false := by
  unfold inRunningDst
  split <;> simp_all

theorem inRunningRange_eq_false_iff (s : State) (a : Nat) :
    inRunningRange s a = false ↔
      ∀ src dst, runningRanges s = some (src, dst) → src.has a = false ∧ dst.has a = false := by
  unfold inRunningRange
  split <;> simp_all

/-- No read and no write reaches an address `MEM` does not have (assumption 6). -/
theorem hostMemRead_outside {s : State} {a : Nat} (h : s.cfg.memBytes ≤ a) :
    hostMemRead s a = .fault .noSuchAddress := if_pos h

theorem hostMemWrite_outside {s : State} {a : Nat} (v : Byte) (h : s.cfg.memBytes ≤ a) :
    hostMemWrite s a v = .fault .noSuchAddress := if_pos h

/-- A read in the running destination range draws a free value. -/
theorem hostMemRead_running {s : State} {a : Nat} (h : a < s.cfg.memBytes) (hr : inRunningDst s a = true) :
    hostMemRead s a = .next (s.respond (.byte (Config.freeByte s.draws))).drawn := by
  rw [hostMemRead, if_neg (Nat.not_le.2 h), if_pos hr]

/-- Any other read answers the byte. -/
theorem hostMemRead_some {s : State} {a : Nat} {b : Byte} (h : a < s.cfg.memBytes) (hr : inRunningDst s a = false)
    (hb : Memory.get s.mem a = some b) : hostMemRead s a = .next (s.respond (.byte b)) := by
  simp [hostMemRead, Nat.not_le.2 h, hr, hb]

/-- Any other read of a byte without a value stops the machine (R56). -/
theorem hostMemRead_none {s : State} {a : Nat} (h : a < s.cfg.memBytes) (hr : inRunningDst s a = false)
    (hb : Memory.get s.mem a = none) : hostMemRead s a = .fault .unwrittenRead := by
  simp [hostMemRead, Nat.not_le.2 h, hr, hb]

/-- A write in a running range stops the machine. -/
theorem hostMemWrite_running {s : State} {a : Nat} (v : Byte) (h : a < s.cfg.memBytes)
    (hr : inRunningRange s a = true) : hostMemWrite s a v = .fault .rangeWriteWhileBusy := by
  rw [hostMemWrite, if_neg (Nat.not_le.2 h), if_pos hr]

/-- Any other write sets the byte. -/
theorem hostMemWrite_plain {s : State} {a : Nat} (v : Byte) (h : a < s.cfg.memBytes)
    (hr : inRunningRange s a = false) :
    hostMemWrite s a v = .next ({ s with mem := Memory.set s.mem a v }.respond .taken) := by
  rw [hostMemWrite, if_neg (Nat.not_le.2 h), if_neg (by simp [hr])]

/-- What an access can do: nothing but answer; write one byte of `MEM` outside the running ranges; or write a register. -/
theorem hostAccess_cases {a : Access} {s t : State} (h : hostAccess a s = .next t) :
    t = { s with resp := t.resp, draws := t.draws } ∨
    (∃ addr v, a = .memWrite addr v ∧ addr < s.cfg.memBytes ∧ inRunningRange s addr = false ∧
      t = { s with mem := Memory.set s.mem addr v, resp := .taken }) ∨
    (∃ r v, a = .regWrite r.offset .w32 v ∧ t = (writeReg s r v).respond .taken) := by
  cases a with
  | regRead o w =>
    left
    simp only [hostAccess] at h
    split_ifs at h with hp <;> cases h
    · unfold readOffset
      split
      · rfl
      · exact readReg_frame ..
    · rfl
  | regWrite o w v =>
    simp only [hostAccess] at h
    split_ifs at h with hp <;> cases h
    · cases hr : Reg.ofOffset o with
      | none => left; simp only [writeOffset, hr]; rfl
      | some r =>
        obtain rfl := (Reg.ofOffset_eq_some_iff o r).1 hr
        obtain ⟨rfl, -⟩ := (portAccepts_eq_true_iff _ _).1 hp
        exact .inr (.inr ⟨r, v, rfl, by simp only [writeOffset, hr]⟩)
    · exact .inl rfl
  | memRead addr =>
    left
    simp only [hostAccess, hostMemRead] at h
    split_ifs at h with h₁ h₂
    · cases h; rfl
    · split at h <;> cases h
      rfl
  | memWrite addr v =>
    simp only [hostAccess, hostMemWrite] at h
    split_ifs at h with h₁ h₂
    cases h
    exact .inr (.inl ⟨addr, v, rfl, by omega, by simpa using h₂, rfl⟩)

/-- What a register write can do: a command is accepted while idle; the sticky bits change; an operand is stored while
idle; or nothing. -/
theorem writeReg_cases (s : State) (r : Reg) (v : Word) :
    (r = .cmd ∧ s.status.busy = false ∧ writeReg s r v = s.accept v) ∨
    (r = .cmd ∧ s.status.busy = true ∧ writeReg s r v = { s with status := { s.status with cmdovr := true } }) ∨
    (r = .status ∧ writeReg s r v = { s with status := s.status.update false false v }) ∨
    (r.isOperand = true ∧ s.status.busy = true ∧
      writeReg s r v = { s with status := { s.status with wign := true } }) ∨
    (r.isOperand = true ∧ s.status.busy = false ∧ writeReg s r v = writeOperand s r v) ∨
    writeReg s r v = s := by
  cases hb : s.status.busy <;> cases r <;> simp [writeReg, hb, Reg.isOperand, Status.update]

/-- A stored operand changes its own register only. -/
theorem writeOperand_frame (s : State) (r : Reg) (v : Word) :
    writeOperand s r v = { s with
      keyLen := (writeOperand s r v).keyLen, src := (writeOperand s r v).src, dst := (writeOperand s r v).dst,
      len := (writeOperand s r v).len, key := (writeOperand s r v).key, blk := (writeOperand s r v).blk } := by
  cases r <;> rfl

/-! ## Steps -/

/-- What a step can do: the core's turn, an access of the host, or a reset, each with its event taken. -/
theorem step_cases {s t : State} (h : step s = .next t) :
    (s.CoreMoves ∧ coreTurn s.popInbox = .next t) ∨
    (∃ a rest, s.inbox = .host a :: rest ∧ hostAccess a s.popInbox = .next t) ∨
    (s.ResetComes ∧ t = applyReset s.popInbox) := by
  have hpop : s.inbox = [] → s.popInbox = s := fun e => by simp only [State.popInbox, e, List.tail_nil]; rw [← e]
  unfold step at h
  cases hi : s.inbox with
  | nil =>
    rw [hi] at h
    exact .inl ⟨.inl hi, by rw [hpop hi]; exact h⟩
  | cons e rest =>
    rw [hi] at h
    cases e with
    | host a => exact .inr (.inl ⟨a, rest, rfl, h⟩)
    | coreTurn => exact .inl ⟨.inr ⟨rest, hi⟩, h⟩
    | reset => exact .inr (.inr ⟨⟨rest, hi⟩, (Host.Outcome.next.inj h).symm⟩)

/-- A run goes on from the next state. -/
theorem run_succ_of_step {s t : State} (n : Nat) (h : step s = .next t) : core.run (n + 1) s = core.run n t := by
  simp only [core, Host.Core.run, h]

/-- The core's turn: nothing while idle; an illegal command's error; or the decoded command's completion. -/
theorem coreTurn_cases {s t : State} (h : coreTurn s = .next t) :
    (s.status.busy = false ∧ t = s) ∨
    (s.status.busy = true ∧ t = s.raise .illegalCmd) ∨
    (s.status.busy = true ∧ ∃ i, decode s.curCmd = .ok i ∧ exec i s = .next t) := by
  unfold coreTurn at h
  split_ifs at h with hb
  · right
    unfold completeCommand at h
    split at h
    · exact .inl ⟨hb, (Host.Outcome.next.inj h).symm⟩
    · rename_i i hi
      exact .inr ⟨hb, i, hi, h⟩
  · exact .inl ⟨by simpa using hb, (Host.Outcome.next.inj h).symm⟩

/-- The `MEM` a reset leaves is in canonical form. -/
theorem wf_memAfterReset {s : State} (hm : Memory.wf s.mem) : Memory.wf (memAfterReset s) := by
  unfold memAfterReset
  split
  · exact hm
  · split
    · exact Memory.wf_mixBytes hm _ _ _ _
    · exact Memory.wf_forgetBytes hm _ _
    · exact Memory.wf_forgetBytes hm _ _

/-- A byte that has a value after a reset had one before, or has the one the abandoned command would have written. -/
theorem get_memAfterReset {s : State} (hm : Memory.wf s.mem) (a : Nat) {b : Byte}
    (h : Memory.get (memAfterReset s) a = some b) :
    Memory.get s.mem a = some b ∨ ∃ t, completeCommand s = .next t ∧ Memory.get t.mem a = some b := by
  unfold memAfterReset at h
  split at h
  · exact .inl h
  · rename_i r d hr
    have forget : Memory.get (Memory.forgetBytes s.mem d.base d.size) a = some b → Memory.get s.mem a = some b := by
      intro h
      rw [Memory.get_forgetBytes hm] at h
      split_ifs at h
      exact h
    split at h
    · rename_i t ht
      rcases Memory.get_mixBytes s.mem t.mem (Config.freePick s.draws) d.base d.size a with e | ⟨-, -, e⟩
      · exact .inl (e.symm.trans h)
      · exact .inr ⟨t, ht, e.symm.trans h⟩
    · exact .inl (forget h)
    · exact .inl (forget h)

end Sys2Proof.Machine
end

