-- ==== Sys2Proof/Laws/HostProgram.lean ====
section
/-! SUPPORT. The laws of a host program's run: a round of `WAIT`, turns one after another, and that the core's turn does
not depend on the port's last answer. -/

namespace Sys2Proof.Machine

/-- A command does not read the port's last answer. -/
theorem exec_respond (i : Instr) (s : State) (v : Response) :
    exec i (s.respond v) = mapNext (·.respond v) (exec i s) := by
  have h := exec_rel (R := fun t u => u = t.respond v) (i := i) (s := s) (s' := s.respond v) rfl rfl rfl rfl rfl rfl
    (fun _ => rfl) (fun _ => rfl) (fun _ => rfl) (fun _ _ _ _ h => by rw [h rfl]; rfl)
    (fun _ _ _ _ _ h => by rw [h rfl]; rfl) (fun _ _ _ _ h => by rw [h rfl]; rfl)
  cases h₁ : exec i s <;> cases h₂ : exec i (s.respond v) <;> rw [h₁, h₂] at h <;> simp_all [OutcomeRel, mapNext]

/-- The core's turn does not read the port's last answer. -/
theorem coreTurn_respond (s : State) (v : Response) :
    coreTurn (s.respond v) = mapNext (·.respond v) (coreTurn s) := by
  have hb : (s.respond v).status.busy = s.status.busy := rfl
  have hc : (s.respond v).curCmd = s.curCmd := rfl
  unfold coreTurn completeCommand
  rw [hb, hc]
  split_ifs
  · cases decode s.curCmd with
    | error e => rfl
    | ok i => exact exec_respond i s v
  · rfl

namespace HostProgram

/-- `R STATUS` answers the word of `STATUS` and does nothing else (R59). -/
theorem readStatus (s : State) :
    hostAccess (.regRead Reg.status.offset .w32) s = .next (s.respond (.word s.status.word)) := by
  rw [hostAccess_regRead]; rfl

/-- `WAIT` goes round again exactly while `BUSY = 1`. -/
@[simp] theorem loopsOn_status (st : Status) : loopsOn (.word st.word) = st.busy := by
  obtain ⟨a, b, c⟩ := st
  revert a b c
  decide

/-- A round of `WAIT` that reads `BUSY = 1`. -/
theorem move_wait_busy {p : Running} {rest : List Op} (h : p.todo = .wait :: rest) (hb : p.core.status.busy = true) :
    move .host p = .next { p with core := p.core.respond (.word p.core.status.word) } := by
  obtain ⟨todo, got, core⟩ := p
  subst h
  simp [move, hostMove, readStatus, Running.andThen, State.respond, show core.status.busy = true from hb]

/-- The round of `WAIT` that reads `BUSY = 0`. -/
theorem move_wait_idle {p : Running} {rest : List Op} (h : p.todo = .wait :: rest) (hb : p.core.status.busy = false) :
    move .host p = .next { p with todo := rest, core := p.core.respond (.word p.core.status.word) } := by
  obtain ⟨todo, got, core⟩ := p
  subst h
  simp [move, hostMove, readStatus, Running.andThen, State.respond, show core.status.busy = false from hb]

/-- The core's turn leaves the host where it is. -/
theorem move_core {p : Running} {t : State} (h : coreTurn p.core = .next t) :
    move .core p = .next { p with core := t } := by
  simp [move, coreMove, h, Running.andThen]

/-- A first turn that gives a next state is followed by the other turns. -/
theorem play_cons_of_move {t : Turn} {p q : Running} (ts : List Turn) (h : move t p = .next q) :
    play (t :: ts) p = play ts q := by
  simp only [play, h]

/-- Turns played in two parts. -/
theorem play_append {ts : List Turn} {p q : Running} (us : List Turn) (h : play ts p = .next q) :
    play (ts ++ us) p = play us q := by
  induction ts generalizing p with
  | nil => cases h; rfl
  | cons t ts ih =>
    cases hm : move t p with
    | next r =>
      rw [List.cons_append, play_cons_of_move _ hm]
      exact ih (by rw [play_cons_of_move _ hm] at h; exact h)
    | fault e => simp [play, hm] at h
    | refused e => simp [play, hm] at h

end HostProgram

end Sys2Proof.Machine
end

