-- ==== Sys2Proof/Laws/PerInstr.lean ====
section
/-! SUPPORT. Statements made per instruction (LAWS.json): one lemma per constructor of `Instr`. -/

namespace Sys2Proof.Laws

namespace Encoding

/-- The instruction is well formed, and its word selects the row of R77 that bears its name. -/
def Statement (i : Instr) : Prop :=
  i.wellFormed = true ∧ ∃ row ∈ opcodeTable, row.mnemonic = i.mnemonic ∧ row.selects (encode i) = true

theorem subf (kb : Byte) : Statement (.subf kb) := by
  refine ⟨by simpa [Instr.wellFormed] using kb.isLt, ⟨"SUBF", 0x00000001, 0xFF00FFFF⟩, by decide, rfl, ?_⟩
  revert kb; decide +kernel

theorem subi (kb : Byte) : Statement (.subi kb) := by
  refine ⟨by simpa [Instr.wellFormed] using kb.isLt, ⟨"SUBI", 0x00000002, 0xFF00FFFF⟩, by decide, rfl, ?_⟩
  revert kb; decide +kernel

theorem perf (kb : Byte) : Statement (.perf kb) := by
  refine ⟨by simpa [Instr.wellFormed] using kb.isLt, ⟨"PERF", 0x00000003, 0xFF00FFFF⟩, by decide, rfl, ?_⟩
  revert kb; decide +kernel

theorem peri (kb : Byte) : Statement (.peri kb) := by
  refine ⟨by simpa [Instr.wellFormed] using kb.isLt, ⟨"PERI", 0x00000004, 0xFF00FFFF⟩, by decide, rfl, ?_⟩
  revert kb; decide +kernel

theorem mix (kb : Byte) : Statement (.mix kb) := by
  refine ⟨by simpa [Instr.wellFormed] using kb.isLt, ⟨"MIX", 0x00000005, 0xFF00FFFF⟩, by decide, rfl, ?_⟩
  revert kb; decide +kernel

theorem rndf (ridx : Fin 16) : Statement (.rndf ridx) := by
  refine ⟨by simp [Instr.wellFormed], ⟨"RNDF", 0x00000008, 0xFFFFF0FF⟩, by decide, rfl, ?_⟩
  revert ridx; decide +kernel

theorem rndi (ridx : Fin 16) : Statement (.rndi ridx) := by
  refine ⟨by simp [Instr.wellFormed], ⟨"RNDI", 0x00000009, 0xFFFFF0FF⟩, by decide, rfl, ?_⟩
  revert ridx; decide +kernel

theorem encb : Statement .encb := ⟨rfl, ⟨"ENCB", 0x00000010, 0xFFFFFFFF⟩, by decide, rfl, by decide⟩

theorem decb : Statement .decb := ⟨rfl, ⟨"DECB", 0x00000011, 0xFFFFFFFF⟩, by decide, rfl, by decide⟩

theorem pad : Statement .pad := ⟨rfl, ⟨"PAD", 0x00000020, 0xFFFFFFFF⟩, by decide, rfl, by decide⟩

theorem unpad : Statement .unpad := ⟨rfl, ⟨"UNPAD", 0x00000021, 0xFFFFFFFF⟩, by decide, rfl, by decide⟩

theorem enc : Statement .enc := ⟨rfl, ⟨"ENC", 0x00000022, 0xFFFFFFFF⟩, by decide, rfl, by decide⟩

theorem dec : Statement .dec := ⟨rfl, ⟨"DEC", 0x00000023, 0xFFFFFFFF⟩, by decide, rfl, by decide⟩

end Encoding

/-- The operand types hold only legal operands, so every instruction is well formed (R73, R74). -/
theorem instr_wellFormed (i : Instr) : i.wellFormed = true := by
  cases i with
  | subf kb => exact (Encoding.subf kb).1
  | subi kb => exact (Encoding.subi kb).1
  | perf kb => exact (Encoding.perf kb).1
  | peri kb => exact (Encoding.peri kb).1
  | mix kb => exact (Encoding.mix kb).1
  | rndf r => exact (Encoding.rndf r).1
  | rndi r => exact (Encoding.rndi r).1
  | encb | decb | pad | unpad | enc | dec => rfl

end Sys2Proof.Laws
end

