-- ==== Sys2Proof/Tests/Slice0.lean ====
section
/-! SUPPORT. The model's own tests: the assembler's checks, words from the encodings of 30_encoding.md R77, one step per
instruction with results taken from the spec's examples, and for each statement with hypotheses a state that meets
them. -/

namespace Sys2Proof.Tests

open Sys2Proof.Machine

/-! ## WellFormed refuses (R80) -/

theorem test_wf_keyByte_range : ∀ n ∈ [Mnemonic.SUBF, .SUBI, .PERF, .PERI, .MIX, .UNMIX],
    (AsmLine.mk n (some 255)).wellFormed = true ∧ (AsmLine.mk n (some 256)).wellFormed = false := by decide

theorem test_wf_roundIndex_range : ∀ n ∈ [Mnemonic.RNDF, .RNDI],
    (AsmLine.mk n (some 15)).wellFormed = true ∧ (AsmLine.mk n (some 16)).wellFormed = false := by decide

theorem test_wf_missing_operand : ∀ n ∈ [Mnemonic.SUBF, .SUBI, .PERF, .PERI, .MIX, .UNMIX, .RNDF, .RNDI],
    (AsmLine.mk n none).wellFormed = false := by decide

theorem test_wf_extra_operand : ∀ n ∈ [Mnemonic.ENCB, .DECB, .PAD, .UNPAD, .ENC, .DEC],
    (AsmLine.mk n none).wellFormed = true ∧ (AsmLine.mk n (some 0)).wellFormed = false := by decide

theorem test_assembly_error : assembleLine "RNDF 16".toList = none ∧ assembleLine "SUBF 0x100".toList = none ∧
    assembleLine "SUBF".toList = none ∧ assembleLine "SUBG 1".toList = none := by decide

/-- R81: `UNMIX k` is `0x00kk0005`; a number in either base. -/
theorem test_assemble_unmix : assembleLine "UNMIX 0xff".toList = some 0x00FF0005 ∧
    assembleLine "MIX 255".toList = some 0x00FF0005 := by decide

/-! ## Decoding: one word per constructor, written from the patterns of R77 -/

theorem test_decode_subf : decode 0b00000000001110100000000000000001#32 = .ok (.subf 0x3a) := by decide
theorem test_decode_subi : decode 0b00000000100000010000000000000010#32 = .ok (.subi 0x81) := by decide
theorem test_decode_perf : decode 0b00000000000001110000000000000011#32 = .ok (.perf 0x07) := by decide
theorem test_decode_peri : decode 0b00000000111000000000000000000100#32 = .ok (.peri 0xe0) := by decide
theorem test_decode_mix : decode 0b00000000111111110000000000000101#32 = .ok (.mix 0xff) := by decide
theorem test_decode_rndf : decode 0b00000000000000000000010100001000#32 = .ok (.rndf 5) := by decide
theorem test_decode_rndi : decode 0b00000000000000000000111100001001#32 = .ok (.rndi 15) := by decide
theorem test_decode_encb : decode 0b00000000000000000000000000010000#32 = .ok .encb := by decide
theorem test_decode_decb : decode 0b00000000000000000000000000010001#32 = .ok .decb := by decide
theorem test_decode_pad : decode 0b00000000000000000000000000100000#32 = .ok .pad := by decide
theorem test_decode_unpad : decode 0b00000000000000000000000000100001#32 = .ok .unpad := by decide
theorem test_decode_enc : decode 0b00000000000000000000000000100010#32 = .ok .enc := by decide
theorem test_decode_dec : decode 0b00000000000000000000000000100011#32 = .ok .dec := by decide

/-- R76, R78: unknown `OP`, reserved bits, unused `KB`, unused `RIDX`. -/
theorem test_decode_illegal :
    decode 0x00000006 = .error .unknownOp ∧ decode 0x01000001 = .error .reservedBits ∧
    decode 0x00001001 = .error .reservedBits ∧ decode 0x00010008 = .error .unusedKb ∧
    decode 0x00000101 = .error .unusedRidx ∧ decode 0x00010010 = .error .unusedKb ∧
    decode 0x00000123 = .error .unusedRidx := by decide

theorem test_encode_examples : encode (.subf 0x3a) = 0x003A0001 ∧ encode (.rndf 5) = 0x00000508 ∧
    encode .encb = 0x00000010 ∧ encode .dec = 0x00000023 := by decide

/-! ## States to test on -/

/-- The bytes `00 01 .. 0f`, the spec's example block and key. -/
def counting : Block := #v[0, 1, 2, 3, 4, 5, 6, 7, 8, 9, 10, 11, 12, 13, 14, 15]

/-- An accepted command, with the example block and key. -/
def ready : State :=
  { State.reset with key := counting, keyLen := 16, blk := counting, status := { busy := true, wign := false, cmdovr := false } }

/-- `bs` at addresses from `a` on, as `MEM`. -/
def memOf (a : Nat) (bs : List Byte) : Memory := Memory.writeBytes [] a bs

/-- `ready` with a message at 0, to be written at 32. -/
def message (bs : List Byte) : State :=
  { ready with mem := memOf 0 bs, src := 0, dst := 32, len := BitVec.ofNat 16 bs.length }

/-- A part of the next state. -/
def after {α : Type} (f : State → α) : Result → Option α
  | .next t => some (f t)
  | .fault _ => none
  | .refused _ => none

/-- `OUT_LEN`, `ERR`, and the bytes at 32 and after. -/
def output (n : Nat) (t : State) : BitVec 17 × BitVec 8 × Option (List Byte) :=
  (t.outLen, t.err, Memory.readBytes t.mem 32 n)

/-- "TEST" and its padded and encrypted forms (R137, R141). -/
def testText : List Byte := [0x54, 0x45, 0x53, 0x54]
def testPadded : List Byte := testText ++ List.replicate 12 0x0c
def testCipher : List Byte :=
  [0x45, 0x0c, 0x0c, 0x0c, 0x0c, 0x53, 0x54, 0x0c, 0x0c, 0x0c, 0x0c, 0x0c, 0x0c, 0x0c, 0x54, 0x0c]

/-! ## One step per instruction -/

/-- R95: the example, and the corner case `subst_fwd(0x00, 0xFF) = 0xFF`. -/
theorem test_subf : after (·.blk[0]) (exec (.subf 0x34) { ready with blk := Vector.replicate 16 0x12 }) = some 0x62 ∧
    after (·.blk[0]) (exec (.subf 0xff) { ready with blk := Vector.replicate 16 0x00 }) = some 0xff := by decide

/-- R96: the example. -/
theorem test_subi : after (·.blk[0]) (exec (.subi 0x34) { ready with blk := Vector.replicate 16 0x62 }) = some 0x12 := by
  decide

/-- R99: the example. -/
theorem test_perf : after (·.blk) (exec (.perf 0x00) ready) =
    some #v[0x0f, 0x01, 0x08, 0x0a, 0x07, 0x0b, 0x0e, 0x02, 0x0c, 0x05, 0x09, 0x0d, 0x04, 0x06, 0x03, 0x00] := by
  decide +kernel

/-- R100: the example. -/
theorem test_peri : after (·.blk) (exec (.peri 0x00) ready) =
    some #v[0x0f, 0x01, 0x07, 0x0e, 0x0c, 0x09, 0x0d, 0x04, 0x02, 0x0a, 0x03, 0x05, 0x08, 0x0b, 0x06, 0x00] := by
  decide +kernel

/-- R102: the example. -/
theorem test_mix : after (·.blk) (exec (.mix 0x3a) ready) =
    some #v[0x3a, 0x3b, 0x38, 0x39, 0x3e, 0x3f, 0x3c, 0x3d, 0x32, 0x33, 0x30, 0x31, 0x36, 0x37, 0x34, 0x35] := by decide

/-- The result of `RNDF 5` on `00 01 .. 0f` (R110). -/
def round5 : Block :=
  #v[0x55, 0xe5, 0xd5, 0xb5, 0x25, 0x65, 0x75, 0xc5, 0x35, 0xf5, 0x85, 0x05, 0x45, 0x15, 0x95, 0xa5]

/-- R110: the example. -/
theorem test_rndf : after (·.blk) (exec (.rndf 5) ready) = some round5 := by decide +kernel

/-- R109: `KEY_LEN = 15` fails and keeps `BLK`. -/
theorem test_rndf_keyLength : exec (.rndf 5) { ready with keyLen := 15 } =
    .next { ready with keyLen := 15, err := 0x01, status := { busy := false, wign := false, cmdovr := false } } := rfl

/-- R111: the examples. -/
theorem test_rndi : after (·.blk) (exec (.rndi 5) { ready with blk := round5 }) = some counting := by decide +kernel

theorem test_rndi_zero : after (·.blk) (exec (.rndi 0) ready) =
    some #v[0xf0, 0x10, 0x70, 0xe0, 0xc0, 0x90, 0xd0, 0x40, 0x20, 0xa0, 0x30, 0x50, 0x80, 0xb0, 0x60, 0x00] := by
  decide +kernel

/-- The result of `ENCB` on `00 01 .. 0f` (R113). -/
def encrypted : Block := #v[0x01, 0x0f, 0x04, 0x0a, 0x0b, 0x02, 0x00, 0x06, 0x07, 0x0e, 0x05, 0x0c, 0x0d, 0x08, 0x03, 0x09]

/-- R113: the example. -/
theorem test_encb : after (·.blk) (exec .encb ready) = some encrypted := by decide +kernel

/-- R114: the example. -/
theorem test_decb : after (·.blk) (exec .decb { ready with blk := encrypted }) = some counting := by decide +kernel

/-- R137: the example, and `LEN = 0`. -/
theorem test_pad : after (output 16) (exec .pad (message testText)) = some (16, 0, some testPadded) := by decide

theorem test_pad_empty : after (output 16) (exec .pad (message [])) = some (16, 0, some (List.replicate 16 0x10)) := by decide

/-- R139: the example, and the example with its last byte changed. -/
theorem test_unpad : after (output 4) (exec .unpad (message testPadded)) = some (4, 0, some testText) := by decide

theorem test_unpad_bad : after (output 0) (exec .unpad (message (testText ++ List.replicate 11 0x0c ++ [0x0d]))) =
    some (0, 0x03, some []) := by decide

/-- R141: the example. R136: a partial overlap is refused. -/
theorem test_enc : after (output 16) (exec .enc (message testText)) = some (16, 0, some testCipher) := by decide +kernel

theorem test_enc_overlap : after (·.err) (exec .enc { message testText with dst := 2 }) = some 0x12 := by decide

/-- R143: the example, and `LEN = 17`. -/
theorem test_dec : after (output 16) (exec .dec (message testCipher)) = some (4, 0, some testPadded) := by decide +kernel

theorem test_dec_length : after (·.err) (exec .dec { message testCipher with len := 17 }) = some 0x02 := by decide

/-- R135, R136: the sums do not wrap at `2^16`. -/
theorem test_range_no_wrap : after (·.err) (exec .pad { message testText with src := 0xfffe }) = some 0x11 := by decide

/-! ## From reset -/

/-- The very next step runs the command; `KEY_LEN = 0` makes the key commands fail (R174). -/
theorem test_reset_runs_subf : after (·.blk[3]) (step (State.reset.withFetchWord 32 0x00340001)) = some 0x43 := by decide

theorem test_reset_runs_encb : after (·.err) (step (State.reset.withFetchWord 32 0x00000010)) = some 0x01 := by decide

theorem test_reset_runs_pad : after (·.outLen) (step (State.reset.withFetchWord 32 0x00000020)) = some 16 := by decide

theorem test_decodeTableWord : decodeTableWord 32 0x00000f09 = some (.rndi 15) ∧ decodeTableWord 32 0 = none := by decide

/-! ## The ports (95_test_vectors.md section 7) -/

/-- An idle core with events to come. -/
def idle (es : List Event) : State := { State.reset with inbox := es }

/-- The port's last answer after `n` steps. -/
def answer (n : Nat) (es : List Event) : Option Response := after (·.resp) (core.run n (idle es))

/-- A host program played from reset with these turns: whether it is done, and what it was answered last. -/
def played (ops : List HostProgram.Op) (ts : List HostProgram.Turn) : Option (Bool × Option Response) :=
  match HostProgram.play ts (HostProgram.start ops State.reset) with
  | .next p => some (p.todo.isEmpty, p.got.getLast?)
  | .fault _ => none
  | .refused _ => none

theorem test_port_id : answer 1 (HostProgram.events (HostProgram.r .id)) = some (.word 0x49474331) := by decide

theorem test_port_unused_bits : 
    answer 2 (HostProgram.events (HostProgram.w .src 0x00012345 ++ HostProgram.r .src)) = some (.word 0x2345) := by decide

theorem test_port_unmapped : answer 1 [.host (.regRead 0x3C .w32)] = some (.word 0) := by decide

theorem test_port_packing : 
    answer 5 (HostProgram.events (HostProgram.ldblk counting ++ HostProgram.r (.blkWord 3))) = some (.word 0x0F0E0D0C) := by
  decide

theorem test_port_wign :
    played (HostProgram.code (HostProgram.c (.mix 1) ++ HostProgram.w .src 0x55) ++ HostProgram.wait ++
      HostProgram.code (HostProgram.r .status)) [.host, .host, .host, .core, .host, .host] =
      some (true, some (.word 0x00000002)) := by decide

theorem test_port_cmdovr :
    played (HostProgram.code (HostProgram.c (.mix 1) ++ HostProgram.c (.mix 2)) ++ HostProgram.wait ++
      HostProgram.code (HostProgram.r .status)) [.host, .host, .core, .host, .host] =
      some (true, some (.word 0x00000004)) := by decide

theorem test_port_w1c :
    played (HostProgram.code (HostProgram.c (.mix 1) ++ HostProgram.w .src 0x55) ++ HostProgram.wait ++
      HostProgram.code (HostProgram.w .status 0x00000002 ++ HostProgram.r .status))
      [.host, .host, .core, .host, .host, .host] = some (true, some (.word 0)) := by decide

/-- R82: `WAIT` reads `BUSY = 1` three times and is still first; the same program with the core's turn after one round goes
on and reads `BLK0`, the example of R102 packed by R24. -/
theorem test_wait_loops :
    let ops := HostProgram.code (HostProgram.ldblk counting ++ HostProgram.c (.mix 0x3a)) ++ HostProgram.wait ++
      HostProgram.code (HostProgram.r (.blkWord 0))
    played ops (List.replicate 8 .host) = some (false, some .taken) ∧
    played ops (List.replicate 6 .host ++ [.core, .host, .host]) = some (true, some (.word 0x39383b3a)) := by decide

theorem test_port_bus_error : answer 1 [.host (.regWrite 0x06 .w32 0x10)] = some .busError ∧
    answer 1 [.host (.regWrite 0x04 .w8 0x10)] = some .busError := by decide

theorem test_port_mem : answer 2 [.host (.memWrite 0xfff 0xa5), .host (.memRead 0xfff)] = some (.byte 0xa5) := by decide

/-- R56, U4 and assumption 6. -/
theorem test_port_mem_faults : step (idle [.host (.memRead 5)]) = .fault .unwrittenRead ∧
    step (idle [.host (.memWrite 4096 0)]) = .fault .noSuchAddress := ⟨rfl, rfl⟩

/-- R12, R82: `MB 0xFFFF` of two bytes on a core of 65536 bytes goes on to address 0x10000, which `MEM` does not have, and
not to address 0. -/
theorem test_mb_does_not_wrap :
    core.run 2 { idle (HostProgram.events (HostProgram.mb 0xffff [1, 2])) with cfg := { Config.standard with memBytes := 65536 } } =
      .fault .noSuchAddress := rfl

/-- R52: a wide write, and a wide read of its bytes and one more: the byte at the lowest address is the least significant. -/
theorem test_wide_access :
    after (fun t => (Memory.readBytes t.mem 7 4, HostProgram.wideAnswer 3 t))
      (core.run 4 (idle (HostProgram.events (HostProgram.mbWide 7 4 0x12345678 ++ HostProgram.rbWide 8 3)))) =
      some (some [0x78, 0x56, 0x34, 0x12], some 0x123456) := by decide

/-- R31 with acceptance: the previous `OUT_LEN` is cleared (V7.37). -/
theorem test_accept_clears_outLen :
    after (fun t => (t.outLen, t.err)) (core.run 4 (idle (HostProgram.events (HostProgram.c .pad) ++ .coreTurn ::
      (HostProgram.events (HostProgram.c .enc) ++ [.coreTurn])))) = some (0, 0x01) := by decide

/-! ## Witnesses: states and operands that meet the hypotheses of the statements -/

/-- A generator for witnesses: every key byte gives the identity. -/
def identityGen : PermGen := .table (Vector.replicate 256 identityPerm)

theorem identityGen_conforming : PermGen.Conforming identityGen := fun k i j h => by
  simpa [identityGen, permOf, identityPerm] using h

/-- An accepted command of a core of 64 bytes with that generator, and "TEST" at 0. -/
def small : State := { message testText with cfg := { memBytes := 64, permGen := identityGen } }

theorem holds_of_readBytes {s : State} {a n : Nat} {bs : List Byte} (h : Memory.readBytes s.mem a n = some bs) :
    s.Holds a bs := ((Memory.readBytes_eq_some_iff ..).1 h).2

theorem small_holds : small.Holds small.src.toNat testText := holds_of_readBytes (n := 4) (by decide)

theorem small_ranges : small.RangesLegal small.len.toNat (paddedLen small.len.toNat) := by
  unfold State.RangesLegal; decide

theorem witness_ResetGivesStatedValues :
    (idle [.reset]).inbox = .reset :: [] ∧ runningRanges (idle [.reset]) = none := by decide

theorem witness_ResetAbandonsRunningCommand :
    let s : State := { message testText with curCmd := encode .pad, inbox := [.reset] }
    s.inbox = .reset :: [] ∧ runningRanges s = some (⟨0, 4⟩, ⟨32, 16⟩) ∧ Memory.wf s.mem ∧
      MemRange.has ⟨32, 16⟩ 31 = false ∧ MemRange.has ⟨32, 16⟩ 48 = false ∧
      ∃ u, completeCommand { s with inbox := [] } = .next u :=
  ⟨rfl, by decide, by decide, by decide, by decide, _, rfl⟩

theorem witness_StepRunsDecodedCommand :
    let s : State := { ready with curCmd := encode (.mix 1) }
    s.status.busy = true ∧ decode s.curCmd = .ok (.mix 1) ∧ s.inbox = [] ∧
      ({ s with inbox := [.coreTurn] } : State).inbox = .coreTurn :: [] := by decide

theorem witness_CmdWriteAcceptsOrSetsCmdovr : State.reset.status.busy = false ∧ ready.status.busy = true := by decide

theorem witness_CommandWriteThenCoreTurnRunsIt :
    let s := idle (HostProgram.events (HostProgram.c .encb) ++ .coreTurn :: [])
    s.status.busy = false ∧ s.inbox = HostProgram.events (HostProgram.c .encb) ++ .coreTurn :: [] := by decide

theorem witness_IllegalWordCompletesWithError :
    let s := idle (HostProgram.events (HostProgram.w .cmd 0) ++ .coreTurn :: [])
    (∀ row ∈ opcodeTable, row.selects 0 = false) ∧ s.status.busy = false ∧
      s.inbox = HostProgram.events (HostProgram.w .cmd 0) ++ .coreTurn :: [] := by decide

theorem witness_DecodedWordIsTheEncoding : decode 0x00340001 = .ok (.subf 0x34) := by decide

theorem witness_OpcodeMapIsTheDecoder :
    ∃ r ∈ opcodeTable, r.mnemonic = "DEC" ∧ r.selects 0x00000023 = true := by decide

/-- The bounds of R80: the last number of a range assembles, the one past it and a missing or unwanted operand do not. -/
theorem witness_AssemblerFollowsItsSyntax :
    (AsmLine.mk .UNMIX (some 255)).assemble = some (.mix 0xff) ∧ (AsmLine.mk .UNMIX (some 256)).assemble = none ∧
    (AsmLine.mk .RNDI (some 15)).assemble = some (.rndi 15) ∧ (AsmLine.mk .RNDI (some 16)).assemble = none ∧
    (AsmLine.mk .SUBF none).assemble = none ∧ (AsmLine.mk .ENC none).assemble = some .enc ∧
    (AsmLine.mk .ENC (some 0)).assemble = none := by decide

theorem witness_KeyAndBlkWordsAreLittleEndian :
    State.reset.status.busy = false ∧ (15 : Fin 16).val / 4 = (3 : Fin 4).val := by decide

theorem witness_UnusedBitsReadZeroAndIgnoreWrites :
    Reg.isOperand .src = true ∧ Reg.isOperand (.blkWord 3) = true ∧ State.reset.status.busy = false := by decide

theorem witness_BusyWritesAreDropped : ready.status.busy = true ∧ Reg.isOperand .len = true := by decide

/-- One witness for each clause: a set and a clear of each sticky bit, `BUSY` rising and falling. -/
theorem witness_StatusFieldsFollowTheirRules :
    (∃ t, step (idle (HostProgram.events (HostProgram.c .encb))) = .next t ∧ t.status.busy = true) ∧
    (∃ t, step ready = .next t ∧ ready.status.busy = true ∧ t.status.busy = false) ∧
    (∃ t, step { ready with inbox := HostProgram.events (HostProgram.w .len 1) } = .next t ∧ ready.status.wign = false ∧
      t.status.wign = true) ∧
    (∃ t, step { ready with inbox := HostProgram.events (HostProgram.c .enc) } = .next t ∧ ready.status.cmdovr = false ∧
      t.status.cmdovr = true) ∧
    (∃ t, step { ready with status := { busy := true, wign := true, cmdovr := true },
                            inbox := HostProgram.events (HostProgram.w .status 7) } = .next t ∧
      t.status.busy = true ∧ t.status.wign = false ∧ t.status.cmdovr = false) :=
  ⟨⟨_, rfl, rfl⟩, ⟨_, rfl, rfl, rfl⟩, ⟨_, rfl, rfl, rfl⟩, ⟨_, rfl, rfl, rfl⟩, ⟨_, rfl, rfl, rfl, rfl⟩⟩

theorem witness_ReadsHaveNoSideEffect :
    (∃ t, hostAccess (.regRead 0x08 .w32) ready = .next t) ∧ (∃ t, hostAccess (.memRead 3) small = .next t) ∧
      State.reset.status.busy = false := ⟨⟨_, rfl⟩, ⟨_, rfl⟩, rfl⟩

theorem witness_UnmappedAndReadOnlyOffsets : 0x24 % 4 = 0 ∧ ∀ r : Reg, r.offset ≠ 0x24 :=
  ⟨rfl, fun r => by
    cases r with
    | keyWord w => revert w; decide
    | blkWord w => revert w; decide
    | id | cmd | status | err | keyLen | src | dst | len | outLen => decide⟩

theorem witness_OddAccessesGetABusError : AccessWidth.w8 ≠ .w32 ∧ 0x06 % 4 ≠ 0 := by decide

/-- The first byte, the last, and the one past it. -/
theorem witness_MemIsOrdinaryMemory :
    0 < small.cfg.memBytes ∧ inRunningRange small 0 = false ∧ 63 < small.cfg.memBytes ∧
      inRunningRange small 63 = false ∧ Memory.get small.mem 63 = none ∧ small.cfg.memBytes ≤ 64 := by decide

/-- The last four bytes of `MEM`, and the four bytes of `TEST`. -/
theorem witness_WideMemAccessesAreLittleEndian :
    let s : State := { small with status := { small.status with busy := false } }
    s.status.busy = false ∧ 60 + 4 ≤ s.cfg.memBytes ∧ 0 + testText.length ≤ s.cfg.memBytes ∧ s.Holds 0 testText :=
  ⟨rfl, by decide, by decide, small_holds⟩

/-- A running `PAD`: the last byte of its destination range, the last of its source range, which is not in the
destination range, and one outside both. -/
theorem witness_MemHazardsWhileBusy :
    let s : State := { small with curCmd := encode .pad }
    s.status.busy = true ∧ decode s.curCmd = .ok .pad ∧ runningRanges s = some (⟨0, 4⟩, ⟨32, 16⟩) ∧
      47 < s.cfg.memBytes ∧ MemRange.has ⟨32, 16⟩ 47 = true ∧ MemRange.has ⟨0, 4⟩ 3 = true ∧
      MemRange.has ⟨32, 16⟩ 3 = false ∧
      MemRange.has ⟨0, 4⟩ 4 = false ∧ MemRange.has ⟨32, 16⟩ 4 = false := by decide

/-- Sixteen bytes to read, four of them written. -/
theorem witness_UnwrittenSourceByteIsAFault :
    let s : State := { small with len := 16 }
    ¬s.Written s.src.toNat s.len.toNat ∧ s.RangesLegal s.len.toNat (paddedLen s.len.toNat) ∧
      s.RangesLegal s.len.toNat s.len.toNat ∧ s.keyLen = 16 ∧ s.len.toNat ≠ 0 ∧ s.len.toNat % 16 = 0 := by
  unfold State.Written State.RangesLegal; decide

theorem witness_PerfMovesLanes :
    let s : State := { ready with blk := Vector.replicate 16 7 }
    ∀ i j : Fin 16, s.blk[i] = s.blk[j] := by decide

theorem witness_PeriMovesLanesBack : Perm.Bijective (permOf small.cfg.permGen 0xff) := identityGen_conforming 0xff

theorem witness_PermutationContract : Perm.Bijective (permOf small.cfg.permGen 0) := identityGen_conforming 0

theorem witness_KeyLengthIsCheckedFirst : State.reset.keyLen ≠ 16 ∧ ({ ready with keyLen := 17 } : State).keyLen ≠ 16 := by
  decide

theorem witness_RndfIsTheThreeLayers : ready.keyLen = 16 ∧ State.reset.keyLen ≠ 16 := by decide

theorem witness_RndiIsTheThreeLayersReversed : ready.keyLen = 16 ∧ State.reset.keyLen ≠ 16 := by decide

theorem witness_RoundInversesRestoreBlk : small.keyLen = 16 ∧ PermGen.Conforming small.cfg.permGen :=
  ⟨rfl, identityGen_conforming⟩

theorem witness_EncbIsSixteenForwardRounds : ready.keyLen = 16 ∧ State.reset.keyLen ≠ 16 := by decide

theorem witness_DecbIsSixteenInverseRounds : ready.keyLen = 16 ∧ State.reset.keyLen ≠ 16 := by decide

theorem witness_BlockRoundTrip : small.keyLen = 16 ∧ PermGen.Conforming small.cfg.permGen :=
  ⟨rfl, identityGen_conforming⟩

theorem witness_BlockClosedForm : small.keyLen = 16 ∧ PermGen.Conforming small.cfg.permGen ∧
    ∀ i : Fin 16, counting[i] = BitVec.ofNat 8 i.val := ⟨rfl, identityGen_conforming, by decide⟩

theorem witness_UnpadAcceptsExactlyPaddedSequences : unpad (List.replicate 16 0x10) = some [] ∧
    ∃ c : Nat, 1 ≤ c ∧ c ≤ 16 ∧ List.replicate 16 (0x10 : Byte) = [] ++ List.replicate c (BitVec.ofNat 8 c) :=
  ⟨by decide, 16, by decide⟩

/-- One witness per clause: a range past the end, a partial overlap, and ranges that are legal. -/
theorem witness_PadWritesThePaddedMessage :
    ({ small with dst := 49 } : State).RangeBad 4 16 ∧
    (¬({ small with dst := 3 } : State).RangeBad 4 16 ∧ ({ small with dst := 3 } : State).OverlapBad 4 16) ∧
    (testText.length = small.len.toNat ∧ small.RangesLegal small.len.toNat (16 * (small.len.toNat / 16 + 1)) ∧
      small.Holds small.src.toNat testText) := by
  refine ⟨?_, ?_, rfl, small_ranges, small_holds⟩
  · unfold State.RangeBad; decide
  · unfold State.RangeBad State.OverlapBad; decide

/-- `small` with well-padded bytes, and with bytes that are not. -/
def smallPadded : State := { message testPadded with cfg := small.cfg }

theorem smallPadded_ranges : smallPadded.RangesLegal smallPadded.len.toNat smallPadded.len.toNat := by
  unfold State.RangesLegal; decide

theorem witness_UnpadWritesTheMessageOrFails :
    ({ small with dst := 61 } : State).RangeBad 4 4 ∧
    (¬({ small with dst := 3 } : State).RangeBad 4 4 ∧ ({ small with dst := 3 } : State).OverlapBad 4 4) ∧
    (testPadded.length = smallPadded.len.toNat ∧ smallPadded.RangesLegal smallPadded.len.toNat smallPadded.len.toNat ∧
      smallPadded.Holds smallPadded.src.toNat testPadded ∧ unpad testPadded = some testText) ∧
    (testText.length = small.len.toNat ∧ small.RangesLegal small.len.toNat small.len.toNat ∧
      small.Holds small.src.toNat testText ∧ unpad testText = none) := by
  refine ⟨?_, ?_, ⟨rfl, smallPadded_ranges, holds_of_readBytes (n := 16) (by decide), by decide⟩,
    ⟨rfl, ?_, small_holds, by decide⟩⟩
  · unfold State.RangeBad; decide
  · unfold State.RangeBad State.OverlapBad; decide
  · unfold State.RangesLegal; decide

theorem witness_EncWritesTheCiphertext :
    State.reset.keyLen ≠ 16 ∧ small.keyLen = 16 ∧
    ({ small with dst := 49 } : State).RangeBad 4 16 ∧
    (¬({ small with dst := 3 } : State).RangeBad 4 16 ∧ ({ small with dst := 3 } : State).OverlapBad 4 16) ∧
    (testText.length = small.len.toNat ∧ small.RangesLegal small.len.toNat (16 * (small.len.toNat / 16 + 1)) ∧
      small.Holds small.src.toNat testText) :=
  ⟨by decide, rfl, witness_PadWritesThePaddedMessage⟩

/-- With the identity generator and the key of zeros, 16 rounds leave a block as it is: the ciphertext of a padded message
is the padded message. -/
def smallZeroKey : State := { smallPadded with key := Vector.replicate 16 0 }

/-- The same with 16 zero bytes, which are not well padded. -/
def smallZeros : State := { message (List.replicate 16 0) with cfg := small.cfg, key := Vector.replicate 16 0 }

theorem witness_DecWritesTheMessageOrFails :
    (State.reset.keyLen ≠ 16 ∧ ({ small with len := 0 } : State).len.toNat = 0 ∧
      ({ small with len := 17 } : State).len.toNat % 16 ≠ 0) ∧
    (smallZeroKey.keyLen = 16 ∧ smallZeroKey.len.toNat ≠ 0 ∧ smallZeroKey.len.toNat % 16 = 0 ∧
      testPadded.length = smallZeroKey.len.toNat ∧
      smallZeroKey.RangesLegal smallZeroKey.len.toNat smallZeroKey.len.toNat ∧
      smallZeroKey.Holds smallZeroKey.src.toNat testPadded ∧
      unpad (ecbDecryptRaw smallZeroKey.cfg.permGen testPadded smallZeroKey.key) = some testText) ∧
    (smallZeros.keyLen = 16 ∧ smallZeros.len.toNat = 16 ∧
      smallZeros.RangesLegal smallZeros.len.toNat smallZeros.len.toNat ∧
      smallZeros.Holds smallZeros.src.toNat (List.replicate 16 0) ∧
      unpad (ecbDecryptRaw smallZeros.cfg.permGen (List.replicate 16 0) smallZeros.key) = none) ∧
    (({ smallZeroKey with dst := 49 } : State).RangeBad 16 16 ∧
      ¬({ smallZeroKey with dst := 15 } : State).RangeBad 16 16 ∧
      ({ smallZeroKey with dst := 15 } : State).OverlapBad 16 16) := by
  refine ⟨by decide, ⟨rfl, by decide, by decide, rfl, smallPadded_ranges, holds_of_readBytes (n := 16) (by decide), ?_⟩,
    ⟨rfl, rfl, smallPadded_ranges, holds_of_readBytes (n := 16) (by decide), ?_⟩, ?_⟩
  · decide +kernel
  · decide +kernel
  · unfold State.RangeBad State.OverlapBad; decide

/-- Two equal blocks of plaintext: blocks 0 and 1 of 32 zero bytes. -/
theorem witness_EqualPlaintextBlocksGiveEqualCiphertextBlocks :
    let m : List Byte := List.replicate 32 0
    let s : State := { message m with dst := 64 }
    s.keyLen = 16 ∧ m.length = s.len.toNat ∧ s.RangesLegal s.len.toNat (paddedLen s.len.toNat) ∧
      s.Holds s.src.toNat m ∧ 1 < s.len.toNat / 16 + 1 ∧ 2 < s.len.toNat / 16 + 1 ∧
      (∀ j : Fin 16, (pad m)[16 * 0 + j.val]? = some (Vector.replicate 16 (0 : Byte))[j]) ∧
      ∀ j < 16, (pad m)[16 * 0 + j]? = (pad m)[16 * 1 + j]? := by
  refine ⟨rfl, rfl, ?_, holds_of_readBytes (n := 32) (by decide), by decide, by decide, by decide, by decide⟩
  unfold State.RangesLegal; decide

theorem witness_MessageRoundTrip :
    small.keyLen = 16 ∧ PermGen.Conforming small.cfg.permGen ∧ testText.length = small.len.toNat ∧
      small.RangesLegal small.len.toNat (paddedLen small.len.toNat) ∧ small.Holds small.src.toNat testText ∧
      paddedLen small.len.toNat < 2 ^ 16 ∧
      (∀ u : State, u.cfg = small.cfg → u.src = small.dst → u.dst = 0 → u.len = 16 →
        u.RangesLegal u.len.toNat u.len.toNat) := by
  refine ⟨rfl, identityGen_conforming, rfl, small_ranges, small_holds, by decide, fun u h₁ h₂ h₃ h₄ => ?_⟩
  unfold State.RangesLegal
  rw [h₁, h₂, h₃, h₄]
  decide

theorem witness_CommandsTouchOnlyTheirRanges :
    (∃ t, exec .pad small = .next t) ∧ messageRanges .pad small = some (⟨0, 4⟩, ⟨32, 16⟩) ∧
      MemRange.has ⟨32, 16⟩ 48 = false ∧ messageRanges .encb small = none ∧
      ∀ a, MemRange.has ⟨0, 4⟩ a = true → Memory.get (Memory.set small.mem 4 0) a = Memory.get small.mem a := by
  refine ⟨⟨_, rfl⟩, by decide, by decide, by decide, fun a ha => ?_⟩
  have : a ≠ 4 := by rintro rfl; simp [MemRange.has] at ha
  rw [Memory.get_set, if_neg this]

theorem witness_CommandsKeepTheOtherRegisters :
    (∃ t, exec .pad small = .next t) ∧ messageRanges .pad small ≠ none ∧ (∃ t, exec (.mix 3) small = .next t) ∧
      messageRanges (.mix 3) small = none := ⟨⟨_, rfl⟩, by decide, ⟨_, rfl⟩, by decide⟩

theorem witness_CommandsDependOnTheirOperandsOnly :
    let s' : State := { small with src := 9, dst := 9, len := 9, mem := [] }
    messageRanges (.mix 3) small = none ∧ small.cfg = s'.cfg ∧ small.blk = s'.blk ∧ small.key = s'.key ∧
      small.keyLen = s'.keyLen ∧ (∃ t, exec (.mix 3) small = .next t) ∧ (∃ t, exec (.mix 3) s' = .next t) ∧
      messageRanges .enc small ≠ none :=
  ⟨by decide, rfl, rfl, rfl, rfl, ⟨_, rfl⟩, ⟨_, rfl⟩, by decide⟩

theorem witness_ErrorsArePrecise :
    ∃ t, exec .dec small = .next t ∧ small.err = 0 ∧ t.err ≠ 0 := ⟨_, rfl, rfl, by decide⟩

theorem witness_InternalRegistersAreUnobservable :
    let s : State := { State.reset with curCmd := 5, sched := { Scheduler.reset with rnd := 15 } }
    s.hideInternal = State.reset.hideInternal ∧ s ≠ State.reset := by decide

theorem witness_EveryStepKeepsTheInvariant : small.Inv ∧ ∃ t, step small = .next t := by
  refine ⟨⟨⟨by decide, by decide, identityGen_conforming⟩, by decide, fun a b h => ?_, rfl, fun _ => ⟨rfl, rfl⟩,
    fun h => absurd rfl h, by decide, by decide⟩, _, rfl⟩
  have hm : small.mem = [(0, 0x54), (1, 0x45), (2, 0x53), (3, 0x54)] := by decide
  show a < 64
  rw [hm] at h
  by_contra ha
  simp [Memory.get, show ¬a < 0 by omega, show a ≠ 0 by omega, show ¬a < 1 by omega, show a ≠ 1 by omega,
    show ¬a < 2 by omega, show a ≠ 2 by omega, show ¬a < 3 by omega, show a ≠ 3 by omega] at h

theorem witness_ReadsWhileBusy : State.reset.status.busy = false ∧ small.status.busy = true ∧ small.Inv :=
  ⟨rfl, rfl, witness_EveryStepKeepsTheInvariant.1⟩

theorem witness_ResetHasTheInvariant : small.cfg.Legal := witness_EveryStepKeepsTheInvariant.1.cfg_legal

/-- With no event left, and with the core's turn next. -/
theorem witness_AcceptedCommandCompletes : ready.status.busy = true ∧ ready.CoreMoves ∧
    ({ ready with inbox := [.coreTurn, .reset] } : State).CoreMoves := ⟨rfl, .inl rfl, .inr ⟨_, rfl⟩⟩

/-- A `WAIT` while idle, and one while a command runs that completes. -/
theorem witness_WaitLoopsUntilBusyIsZero :
    let ops := HostProgram.wait ++ HostProgram.code HostProgram.rdblk
    (HostProgram.start ops State.reset).todo = HostProgram.wait ++ HostProgram.code HostProgram.rdblk ∧
      State.reset.status.busy = false ∧
      ({ ready with curCmd := encode .encb } : State).status.busy = true ∧
      ∃ t, coreTurn { ready with curCmd := encode .encb } = .next t := ⟨rfl, rfl, rfl, _, rfl⟩

/-- A program that is done, one before an access, one before a `WAIT`. -/
theorem witness_HostProgramTurnsAreSteps :
    (HostProgram.start [] ready).todo = [] ∧
    (HostProgram.start (HostProgram.code HostProgram.rdblk) ready).todo =
      .access (.regRead 0x50 .w32) :: HostProgram.code (HostProgram.rdblk.drop 1) ∧
    (HostProgram.start HostProgram.wait ready).todo = .wait :: [] := by decide

theorem witness_IdleStateChangesOnlyByHostWrites :
    State.reset.status.busy = false ∧ ∃ t, step (idle [.coreTurn]) = .next t := ⟨rfl, _, rfl⟩

/-- One witness per clause: a changed operand, and a changed `ERR`. -/
theorem witness_RegistersChangeOnlyByNamedEvents :
    (∃ t, step (idle (HostProgram.events (HostProgram.w .len 5))) = .next t ∧ t.len ≠ (idle []).len) ∧
    (∃ t, step ({ State.reset with status := { busy := true, wign := false, cmdovr := false } } : State) = .next t ∧
      t.err ≠ State.reset.err) ∧
    (∃ t, step (idle (HostProgram.events (HostProgram.w (.blkWord 3) 5))) = .next t ∧ t.blk ≠ (idle []).blk) ∧
    (∃ t, step { ready with curCmd := encode (.mix 1) } = .next t ∧ t.blk ≠ ready.blk) :=
  ⟨⟨_, rfl, by decide⟩, ⟨_, rfl, by decide⟩, ⟨_, rfl, by decide⟩, ⟨_, rfl, by decide⟩⟩

end Sys2Proof.Tests
end

section
/-! The register port: the bytes of `KEY` and `BLK` as words, what each register reads and what a write to it does, and
the statements of 10_state.md that these rules settle. -/

namespace Sys2Proof.Machine

/-! ## Words of `KEY` and `BLK` (R24) -/

/-- Two words with the same four bytes are equal. -/
theorem Word.ext_bytes {v v' : Word} (h : ∀ j : Fin 4, v.extractLsb' (8 * j.val) 8 = v'.extractLsb' (8 * j.val) 8) :
    v = v' := by
  refine BitVec.eq_of_getLsbD_eq fun i hi => ?_
  have hb := congrArg (·.getLsbD (i % 8)) (h ⟨i / 8, by omega⟩)
  have hmod : i % 8 < 8 := Nat.mod_lt _ (by decide)
  simpa [hmod, Nat.div_add_mod] using hb

/-- The bits of a word of a 16-byte register. -/
theorem getLsbD_packWord (r : Block) (w : Fin 4) (n : Nat) :
    (packWord r w).getLsbD n =
      if n < 8 then r[4 * w.val].getLsbD n
      else if n < 16 then r[4 * w.val + 1].getLsbD (n - 8)
      else if n < 24 then r[4 * w.val + 2].getLsbD (n - 16)
      else r[4 * w.val + 3].getLsbD (n - 24) := by
  have h16 : n - 8 < 8 ↔ n < 16 := by omega
  have h24 : n - 16 < 8 ↔ n < 24 := by omega
  refine BitVec.getLsbD_append.trans ?_
  rw [BitVec.getLsbD_append, BitVec.getLsbD_append]
  simp only [Nat.sub_sub, Nat.reduceAdd, h16, h24]

/-- Byte `j` of word `w` of a register is its byte `4w+j`. -/
theorem extractLsb'_packWord (r : Block) (w j : Fin 4) :
    (packWord r w).extractLsb' (8 * j.val) 8 = r[4 * w.val + j.val] := by
  refine BitVec.eq_of_getLsbD_eq fun i hi => ?_
  rw [BitVec.getLsbD_extractLsb', getLsbD_packWord]
  fin_cases j <;> grind

/-- The same, for a byte given by its position in the register. -/
theorem extractLsb'_packWord_of_div (r : Block) {w : Fin 4} {i : Fin 16} (h : i.val / 4 = w.val) :
    (packWord r w).extractLsb' (8 * (i.val % 4)) 8 = r[i] := by
  have hi : 4 * w.val + i.val % 4 = i.val := by omega
  exact (extractLsb'_packWord r w ⟨i.val % 4, Nat.mod_lt _ (by decide)⟩).trans (by simp [hi])

/-- A write to word `w` sets the four bytes of the word and no other. -/
theorem unpackWord_getElem_nat (r : Block) (w : Fin 4) (v : Word) (i : Nat) (hi : i < 16) :
    (unpackWord r w v)[i] = if i / 4 = w.val then v.extractLsb' (8 * (i % 4)) 8 else r[i] := by
  simp [unpackWord]

theorem unpackWord_getElem (r : Block) (w : Fin 4) (v : Word) (i : Fin 16) :
    (unpackWord r w v)[i] = if i.val / 4 = w.val then v.extractLsb' (8 * (i.val % 4)) 8 else r[i] :=
  unpackWord_getElem_nat r w v i.val i.isLt

/-- Reading a word after writing a word. -/
theorem packWord_unpackWord (r : Block) (w w' : Fin 4) (v : Word) :
    packWord (unpackWord r w v) w' = if w' = w then v else packWord r w' := by
  refine Word.ext_bytes fun j => ?_
  have hdiv : (4 * w'.val + j.val) / 4 = w'.val := by omega
  have hmod : (4 * w'.val + j.val) % 4 = j.val := by omega
  rw [extractLsb'_packWord, unpackWord_getElem_nat, hdiv, hmod]
  by_cases h : w' = w
  · simp [h]
  · simp [h, Fin.val_inj, extractLsb'_packWord]

/-! ## Fields narrower than a word (R41) -/

/-- A field read as a word has no bit above its width. -/
theorem setWidth_and_mask {n : Nat} (x : BitVec n) :
    x.setWidth 32 &&& (BitVec.allOnes n).setWidth 32 = x.setWidth 32 := by
  rw [← BitVec.setWidth_and, BitVec.and_allOnes]

/-- A word stored in a field and read back has lost the bits above its width. -/
theorem setWidth_setWidth_eq_and_mask (n : Nat) (v : Word) :
    (v.setWidth n).setWidth 32 = v &&& (BitVec.allOnes n).setWidth 32 := by
  refine BitVec.eq_of_getLsbD_eq fun i hi => ?_
  simp [hi, Bool.and_comm]

/-! ## `STATUS` (R33) -/

/-- The bits of the `STATUS` word. -/
theorem Status.getLsbD_word (st : Status) (n : Nat) :
    st.word.getLsbD n =
      if n = 0 then st.busy else if n = 1 then st.wign else if n = 2 then st.cmdovr else false := by
  refine BitVec.getLsbD_append.trans ?_
  rw [BitVec.getLsbD_append, BitVec.getLsbD_append]
  match n with
  | 0 | 1 | 2 | n + 3 => simp

/-- No bit of the `STATUS` word is above bit 2. -/
theorem Status.word_and_usedBits (st : Status) : st.word &&& Reg.usedBits .status = st.word := by
  obtain ⟨busy, wign, cmdovr⟩ := st
  revert busy wign cmdovr
  decide

theorem Status.update_wign (st : Status) : st.update true false 0 = { st with wign := true } := by
  simp [Status.update]

theorem Status.update_cmdovr (st : Status) : st.update false true 0 = { st with cmdovr := true } := by
  simp [Status.update]

/-- A `STATUS` write alone: a 1 clears, a 0 leaves. -/
theorem Status.update_clear (st : Status) (v : Word) : st.update false false v =
    { st with wign := st.wign && !v.getLsbD 1, cmdovr := st.cmdovr && !v.getLsbD 2 } := by
  simp [Status.update]

/-! ## Reads (R40, R41, R43) -/

/-- A register that is not a word of `BLK` reads its value, also while a command runs. -/
theorem readReg_of_ne_blkWord (s : State) {r : Reg} (h : ∀ w, r ≠ .blkWord w) :
    readReg s r = s.respond (.word (s.regValue r)) := by
  cases r with
  | blkWord w => exact absurd rfl (h w)
  | id | cmd | status | err | keyLen | src | dst | len | outLen | keyWord => rfl

theorem hostAccess_regRead_of_ne_blkWord (s : State) {r : Reg} (h : ∀ w, r ≠ .blkWord w) :
    hostAccess (.regRead r.offset .w32) s = .next { s with resp := .word (s.regValue r) } := by
  rw [hostAccess_regRead, readReg_of_ne_blkWord s h]
  rfl

/-- A word of `BLK` reads a free value while a command runs. -/
theorem readReg_blkWord_of_busy {s : State} (hb : s.status.busy = true) (w : Fin 4) :
    readReg s (.blkWord w) = (s.respond (.word (Config.freeWord s.draws))).drawn := if_pos hb

/-- Every register reads its value while idle. -/
theorem readReg_of_idle {s : State} (hb : s.status.busy = false) (r : Reg) :
    readReg s r = s.respond (.word (s.regValue r)) := by
  cases r with
  | blkWord w => exact if_neg (by simp [hb])
  | id | cmd | status | err | keyLen | src | dst | len | outLen | keyWord => rfl

/-- A register's value has no bit that the register does not use. -/
theorem State.regValue_and_usedBits (s : State) (r : Reg) : s.regValue r &&& r.usedBits = s.regValue r := by
  cases r with
  | status => exact s.status.word_and_usedBits
  | err => exact setWidth_and_mask s.err
  | keyLen => exact setWidth_and_mask s.keyLen
  | src => exact setWidth_and_mask s.src
  | dst => exact setWidth_and_mask s.dst
  | len => exact setWidth_and_mask s.len
  | outLen => exact setWidth_and_mask s.outLen
  | id | cmd | keyWord | blkWord => exact BitVec.and_allOnes

/-- A read answers a word without a bit that the register does not use, whether or not a command runs. -/
theorem readReg_resp (s : State) (r : Reg) : ∃ v, (readReg s r).resp = .word v ∧ v &&& r.usedBits = v := by
  by_cases h : s.status.busy = true ∧ ∃ w, r = .blkWord w
  · obtain ⟨hb, w, rfl⟩ := h
    exact ⟨_, by rw [readReg_blkWord_of_busy hb]; rfl, BitVec.and_allOnes⟩
  · have hr : readReg s r = s.respond (.word (s.regValue r)) := by
      cases hb : s.status.busy with
      | false => exact readReg_of_idle hb r
      | true => exact readReg_of_ne_blkWord s fun w hw => h ⟨hb, w, hw⟩
    exact ⟨_, by rw [hr]; rfl, s.regValue_and_usedBits r⟩

/-! ## Writes (R32, R33, R40 to R42) -/

theorem writeReg_operand_of_idle {s : State} {r : Reg} (hr : r.isOperand = true) (hb : s.status.busy = false)
    (v : Word) : writeReg s r v = writeOperand s r v := by
  cases r <;> simp_all [writeReg, Reg.isOperand]

theorem hostAccess_write_keyWord {s : State} (hb : s.status.busy = false) (w : Fin 4) (v : Word) :
    hostAccess (.regWrite (Reg.keyWord w).offset .w32 v) s =
      .next { s with key := unpackWord s.key w v, resp := .taken } := by
  rw [hostAccess_regWrite, writeReg_operand_of_idle rfl hb, writeOperand, State.respond]

theorem hostAccess_write_blkWord {s : State} (hb : s.status.busy = false) (w : Fin 4) (v : Word) :
    hostAccess (.regWrite (Reg.blkWord w).offset .w32 v) s =
      .next { s with blk := unpackWord s.blk w v, resp := .taken } := by
  rw [hostAccess_regWrite, writeReg_operand_of_idle rfl hb, writeOperand, State.respond]

theorem writeReg_operand_of_busy {s : State} {r : Reg} (hr : r.isOperand = true) (hb : s.status.busy = true)
    (v : Word) : writeReg s r v = { s with status := { s.status with wign := true } } := by
  rw [← Status.update_wign]
  cases r <;> simp_all [writeReg, Reg.isOperand]

theorem writeReg_cmd_of_idle {s : State} (hb : s.status.busy = false) (v : Word) :
    writeReg s .cmd v = s.accept v := if_neg (by simp [hb])

theorem writeReg_cmd_of_busy {s : State} (hb : s.status.busy = true) (v : Word) :
    writeReg s .cmd v = { s with status := { s.status with cmdovr := true } } := by
  rw [← Status.update_cmdovr]
  exact if_pos hb

theorem writeReg_status (s : State) (v : Word) : writeReg s .status v = { s with
    status := { s.status with wign := s.status.wign && !v.getLsbD 1, cmdovr := s.status.cmdovr && !v.getLsbD 2 } } := by
  rw [← Status.update_clear]
  rfl

/-- `ID`, `ERR` and `OUT_LEN` ignore writes. -/
theorem writeReg_of_readOnly {r : Reg} (hr : r ∈ [Reg.id, .err, .outLen]) (s : State) (v : Word) :
    writeReg s r v = s := by
  simp only [List.mem_cons, List.not_mem_nil, or_false] at hr
  rcases hr with rfl | rfl | rfl <;> rfl

/-- A stored operand reads the used bits of the value. -/
theorem regValue_writeOperand_same (s : State) {r : Reg} (hr : r.isOperand = true) (v : Word) :
    (writeOperand s r v).regValue r = v &&& r.usedBits := by
  cases r with
  | keyLen => exact setWidth_setWidth_eq_and_mask 8 v
  | src | dst | len => exact setWidth_setWidth_eq_and_mask 16 v
  | keyWord w => exact (packWord_unpackWord s.key w w v).trans ((if_pos rfl).trans BitVec.and_allOnes.symm)
  | blkWord w => exact (packWord_unpackWord s.blk w w v).trans ((if_pos rfl).trans BitVec.and_allOnes.symm)
  | id | cmd | status | err | outLen => cases hr

/-- Every other register reads what it read before the operand was stored. -/
theorem regValue_writeOperand_of_ne (s : State) {r r' : Reg} (h : r' ≠ r) (v : Word) :
    (writeOperand s r v).regValue r' = s.regValue r' := by
  cases r with
  | keyWord w =>
    cases r' with
    | keyWord w' => exact (packWord_unpackWord s.key w w' v).trans (if_neg fun e => h (congrArg _ e))
    | _ => simp only [writeOperand, State.regValue]
  | blkWord w =>
    cases r' with
    | blkWord w' => exact (packWord_unpackWord s.blk w w' v).trans (if_neg fun e => h (congrArg _ e))
    | _ => simp only [writeOperand, State.regValue]
  | keyLen | src | dst | len => cases r' <;> simp_all [writeOperand, State.regValue]
  | id | cmd | status | err | outLen => rfl

end Sys2Proof.Machine
end

section
/-! What every access, command and step does to `STATUS` (10_state.md R33). -/

namespace Sys2Proof.Machine

/-! ## The commands (R33, R156) -/

/-- A command that completes ends `BUSY` and leaves the sticky bits. -/
theorem exec_status {i : Instr} {s t : State} (h : exec i s = .next t) :
    t.status = { s.status with busy := false } := by
  rcases exec_cases h with ⟨e, rfl⟩ | ⟨x, sc, -, -, rfl⟩ | ⟨n, d, bs, sc, -, -, -, -, ⟨k, -, rfl⟩ | ⟨-, rfl⟩⟩ <;> rfl

/-- The core's turn ends `BUSY` and leaves the sticky bits. -/
theorem coreTurn_status {s t : State} (h : coreTurn s = .next t) : t.status = { s.status with busy := false } := by
  rcases coreTurn_cases h with ⟨hb, rfl⟩ | ⟨-, rfl⟩ | ⟨-, i, -, he⟩
  · rw [← hb]
  · rfl
  · exact exec_status he

/-- A second outcome related to the first by a function is that function of it. -/
theorem eq_mapNext_of_outcomeRel {f : State → State} {a b : Result} (h : OutcomeRel (fun t u => u = f t) a b) :
    b = mapNext f a := by
  cases a <;> cases b <;> simp_all [OutcomeRel, mapNext]

/-- No command depends on `STATUS`: from another one it does the same, and leaves that one with `BUSY` ended. -/
theorem exec_withStatus (i : Instr) (s : State) (st : Status) :
    exec i { s with status := st } = mapNext (fun t => { t with status := { st with busy := false } }) (exec i s) := by
  have hsched : s.sched = ({ s with status := st } : State).sched := rfl
  exact eq_mapNext_of_outcomeRel (exec_rel rfl rfl rfl rfl rfl rfl (fun _ => rfl) (fun _ => rfl) (fun _ => rfl)
    (fun _ _ _ _ h => by rw [h hsched]; rfl) (fun _ _ _ _ _ h => by rw [h hsched]; rfl)
    (fun _ _ _ _ h => by rw [h hsched]; rfl))

/-! ## Register writes and steps -/

/-- What a write of `v` to register `r` may make of `STATUS`. -/
inductive WriteStatus (st : Status) (r : Reg) (v : Word) : Status → Prop
  /-- nothing -/
  | keep : WriteStatus st r v st
  /-- a command is accepted (R155) -/
  | accept : r = .cmd → st.busy = false → WriteStatus st r v { st with busy := true }
  /-- a command is dropped (R32) -/
  | dropCmd : r = .cmd → st.busy = true → WriteStatus st r v { st with cmdovr := true }
  /-- an operand is dropped (R42) -/
  | dropOperand : r.isOperand = true → st.busy = true → WriteStatus st r v { st with wign := true }
  /-- sticky bits are cleared (R33) -/
  | clear : r = .status →
      WriteStatus st r v { st with wign := st.wign && !v.getLsbD 1, cmdovr := st.cmdovr && !v.getLsbD 2 }

theorem writeReg_status_cases (s : State) (r : Reg) (v : Word) : WriteStatus s.status r v (writeReg s r v).status := by
  rcases writeReg_cases s r v with
    ⟨hr, hb, e⟩ | ⟨hr, hb, e⟩ | ⟨hr, e⟩ | ⟨hr, hb, e⟩ | ⟨hr, hb, e⟩ | e <;> rw [e]
  · exact .accept hr hb
  · exact .dropCmd hr hb
  · rw [Status.update_clear]
    exact .clear hr
  · exact .dropOperand hr hb
  · rw [writeOperand_frame]
    exact .keep
  · exact .keep

/-- A host access leaves `STATUS`, or is a register write that does to it what the register says. -/
theorem hostAccess_status {a : Access} {s t : State} (h : hostAccess a s = .next t) :
    t.status = s.status ∨ ∃ r v, a = .regWrite r.offset .w32 v ∧ WriteStatus s.status r v t.status := by
  rcases hostAccess_cases h with e | ⟨addr, v, -, -, -, e⟩ | ⟨r, v, ha, e⟩
  · exact .inl (by rw [e])
  · exact .inl (by rw [e])
  · exact .inr ⟨r, v, ha, by rw [e]; exact writeReg_status_cases s r v⟩

/-- What a step may do to `STATUS`: a reset clears it; the core's turn ends `BUSY`; and an access of the host leaves it,
or writes a register. -/
theorem step_status {s t : State} (h : step s = .next t) :
    (s.ResetComes ∧ t.status = { busy := false, wign := false, cmdovr := false }) ∨
    (s.CoreMoves ∧ t.status = { s.status with busy := false }) ∨
    (¬(s.ResetComes ∨ s.CoreMoves) ∧
      (t.status = s.status ∨ ∃ r v, s.WritesReg r v ∧ WriteStatus s.status r v t.status)) := by
  rcases step_cases h with ⟨hc, ht⟩ | ⟨a, rest, hi, ht⟩ | ⟨hr, rfl⟩
  · exact .inr (.inl ⟨hc, coreTurn_status (s := s.popInbox) ht⟩)
  · refine .inr (.inr ⟨by simp [State.ResetComes, State.CoreMoves, hi], ?_⟩)
    rcases hostAccess_status ht with e | ⟨r, v, rfl, hw⟩
    · exact .inl e
    · exact .inr ⟨r, v, ⟨rest, hi⟩, hw⟩
  · exact .inl ⟨hr, rfl⟩

/-- What R33 says of a step from `s` that leaves `STATUS` as `st`: which steps raise and clear each field. -/
def State.StatusRules (s : State) (st : Status) : Prop :=
  (s.status.busy = false → st.busy = true → ∃ v, s.WritesReg .cmd v) ∧
  (s.status.busy = true → (st.busy = false ↔ s.ResetComes ∨ s.CoreMoves)) ∧
  (s.status.wign = false → st.wign = true → s.status.busy = true ∧ ∃ r v, r.isOperand = true ∧ s.WritesReg r v) ∧
  (s.status.wign = true → st.wign = false → s.ResetComes ∨ ∃ v, v.getLsbD 1 = true ∧ s.WritesReg .status v) ∧
  (s.status.cmdovr = false → st.cmdovr = true → s.status.busy = true ∧ ∃ v, s.WritesReg .cmd v) ∧
  (s.status.cmdovr = true → st.cmdovr = false → s.ResetComes ∨ ∃ v, v.getLsbD 2 = true ∧ s.WritesReg .status v)

theorem statusRules_of_writes {s : State} {r : Reg} {v : Word} {st : Status} (hw : s.WritesReg r v)
    (hn : ¬(s.ResetComes ∨ s.CoreMoves)) (h : WriteStatus s.status r v st) : s.StatusRules st := by
  cases h with
  | keep => simp_all [State.StatusRules]
  | accept hr hb | dropCmd hr hb =>
    have hcmd : ∃ v, s.WritesReg .cmd v := ⟨v, hr ▸ hw⟩
    simp_all [State.StatusRules]
  | dropOperand hr hb =>
    have hop : ∃ r v, r.isOperand = true ∧ s.WritesReg r v := ⟨r, v, hr, hw⟩
    simp_all [State.StatusRules]
  | clear hr =>
    have hclear : ∀ n, v.getLsbD n = true → ∃ v, v.getLsbD n = true ∧ s.WritesReg .status v :=
      fun n h => ⟨v, h, hr ▸ hw⟩
    have h₁ := hclear 1
    have h₂ := hclear 2
    simp_all [State.StatusRules]

/-- Every step keeps to the rules of R33. -/
theorem step_statusRules {s t : State} (h : step s = .next t) : s.StatusRules t.status := by
  rcases step_status h with ⟨hr, e⟩ | ⟨hc, e⟩ | ⟨hn, e | ⟨r, v, hw, hs⟩⟩
  · simp [State.StatusRules, e, hr]
  · simp_all [State.StatusRules]
  · simp_all [State.StatusRules]
  · exact statusRules_of_writes hw hn hs

end Sys2Proof.Machine
end

section
/-! The statements of 10_state.md about the register port. -/

namespace Sys2Proof.Machine

/-- Settles O12: a write through the port is `unpackWord`, a read `packWord`, of which R24 holds byte by byte. -/
theorem keyAndBlkWordsAreLittleEndian : Obligations.KeyAndBlkWordsAreLittleEndian := by
  refine ⟨fun s w v hb => ⟨?_, ?_⟩, fun s w hb => ⟨?_, ?_⟩⟩
  · exact ⟨_, hostAccess_write_keyWord hb w v, rfl, unpackWord_getElem s.key w v⟩
  · exact ⟨_, hostAccess_write_blkWord hb w v, rfl, unpackWord_getElem s.blk w v⟩
  · refine ⟨packWord s.key w, ?_, fun i => extractLsb'_packWord_of_div s.key⟩
    exact (hostAccess_regRead s (.keyWord w)).trans (congrArg _ (readReg_of_idle hb _))
  · refine ⟨packWord s.blk w, ?_, fun i => extractLsb'_packWord_of_div s.blk⟩
    exact (hostAccess_regRead s (.blkWord w)).trans (congrArg _ (readReg_of_idle hb _))

/-- Settles O13: no register's value has an unused bit, and an operand is stored without the bits it does not use. -/
theorem unusedBitsReadZeroAndIgnoreWrites : Obligations.UnusedBitsReadZeroAndIgnoreWrites := by
  refine ⟨fun s r => ?_, fun s r v hr hb => ⟨_, hostAccess_regWrite s r v, ?_⟩⟩
  · obtain ⟨v, hv, hu⟩ := readReg_resp s r
    exact ⟨_, v, hostAccess_regRead s r, hv, hu⟩
  · rw [writeReg_operand_of_idle hr hb]
    refine ⟨regValue_writeOperand_same s hr v, fun r' h => regValue_writeOperand_of_ne s h v, ?_⟩
    exact congrArg (·.respond .taken) (writeOperand_frame s r v)

/-- Settles O15: the fields of `STATUS` by its word and its write, over every step by `step_statusRules`. -/
theorem statusFieldsFollowTheirRules : Obligations.StatusFieldsFollowTheirRules :=
  ⟨fun s n => s.status.getLsbD_word n,
    fun s v => (hostAccess_regWrite s .status v).trans (by rw [writeReg_status]; rfl),
    fun _ _ => rfl, fun _ _ h => step_statusRules h, exec_withStatus⟩

/-- Settles O14: while `BUSY = 1` a write of an operand or of `CMD` only sets its sticky bit. -/
theorem busyWritesAreDropped : Obligations.BusyWritesAreDropped := by
  refine fun s v hb => ⟨fun r hr => ?_, ?_, ?_⟩
  · rw [hostAccess_regWrite, writeReg_operand_of_busy hr hb]; rfl
  · refine (hostAccess_regWrite s .cmd v).trans ?_
    rw [writeReg_cmd_of_busy hb]; rfl
  · refine (hostAccess_regWrite s .status v).trans ?_
    rw [writeReg_status, ← hb]; rfl

/-- Settles O17: no register stands at an unmapped offset, and `writeReg` leaves a read-only register alone. -/
theorem unmappedAndReadOnlyOffsets : Obligations.UnmappedAndReadOnlyOffsets := by
  refine ⟨fun s o v ho hu => ?_, fun s v r hr => ?_⟩
  · have hp : portAccepts o .w32 = true := (portAccepts_eq_true_iff o _).2 ⟨rfl, ho⟩
    have hn : Reg.ofOffset o = none := (Reg.ofOffset_eq_none_iff o).2 hu
    constructor
    · simp only [hostAccess, hp, readOffset, hn, if_true]; rfl
    · simp only [hostAccess, hp, writeOffset, hn, if_true]; rfl
  · rw [hostAccess_regWrite, writeReg_of_readOnly hr]; rfl

/-- Settles O19: acceptance clears `ERR` and `OUT_LEN`, the invariant keeps them 0 while `BUSY = 1`, and only `BLK` then
reads another value than its own. -/
theorem readsWhileBusy : Obligations.ReadsWhileBusy := by
  refine ⟨fun s w hb => ⟨_, hostAccess_regWrite s .cmd w, ?_⟩, fun s hs hb => ?_⟩
  · rw [writeReg_cmd_of_idle hb]
    exact ⟨rfl, rfl, rfl⟩
  · obtain ⟨herr, hlen⟩ := hs.busy_clear hb
    have herr0 : s.regValue .err = 0 := by simp [State.regValue, herr, errNone]
    have hlen0 : s.regValue .outLen = 0 := by simp [State.regValue, hlen]
    refine ⟨?_, ?_, fun w => ?_, fun r hr => ?_⟩
    · exact (hostAccess_regRead_of_ne_blkWord s (r := .err) nofun).trans (by rw [herr0])
    · exact (hostAccess_regRead_of_ne_blkWord s (r := .outLen) nofun).trans (by rw [hlen0])
    · exact (hostAccess_regRead s (.blkWord w)).trans (congrArg _ (readReg_blkWord_of_busy hb w))
    · exact hostAccess_regRead_of_ne_blkWord s (by rintro w rfl; simp at hr)

end Sys2Proof.Machine
end

section
/-! The memory port while a command runs, and the bytes of `MEM` a command touches (20_memory.md). -/

namespace Sys2Proof.Machine

/-! ## Ranges (R135) -/

theorem MemRange.has_eq_true_iff (r : MemRange) (a : Nat) : r.has a = true ↔ r.base ≤ a ∧ a < r.base + r.size := by
  simp [MemRange.has]

theorem MemRange.has_eq_false_iff (r : MemRange) (a : Nat) : r.has a = false ↔ a < r.base ∨ r.base + r.size ≤ a := by
  rw [← Bool.not_eq_true, MemRange.has_eq_true_iff]
  omega

/-- Only the four message commands have ranges. -/
theorem messageRanges_eq_none_iff (i : Instr) (s : State) :
    messageRanges i s = none ↔ i ≠ .pad ∧ i ≠ .unpad ∧ i ≠ .enc ∧ i ≠ .dec := by
  cases i <;> simp [messageRanges, messageLengths]

/-- The source range of a message command is the `LEN` bytes from `SRC`. -/
theorem messageRanges_source {i : Instr} {s : State} (h : messageRanges i s ≠ none) :
    ∃ dst, messageRanges i s = some (⟨s.src.toNat, s.len.toNat⟩, dst) := by
  cases i with
  | pad | unpad | enc | dec => exact ⟨_, rfl⟩
  | subf | subi | perf | peri | mix | rndf | rndi | encb | decb => exact absurd rfl h

/-! ## The running command (R63) -/

theorem runningRanges_of_busy {s : State} {i : Instr} (hb : s.status.busy = true) (hi : decode s.curCmd = .ok i) :
    runningRanges s = messageRanges i s := by
  simp only [runningRanges, hb, hi, if_true]

theorem inRunningDst_of_running {s : State} {src dst : MemRange} (h : runningRanges s = some (src, dst)) (a : Nat) :
    inRunningDst s a = dst.has a := by
  simp only [inRunningDst, h]

theorem inRunningRange_of_running {s : State} {src dst : MemRange} (h : runningRanges s = some (src, dst)) (a : Nat) :
    inRunningRange s a = (src.has a || dst.has a) := by
  simp only [inRunningRange, h]

/-- The state with no command running. -/
def State.idle (s : State) : State := { s with status := { s.status with busy := false } }

theorem inRunningDst_idle (s : State) (a : Nat) : inRunningDst s.idle a = false := by
  simp [inRunningDst, runningRanges_of_idle (s := s.idle) rfl]

theorem inRunningRange_idle (s : State) (a : Nat) : inRunningRange s.idle a = false := by
  simp [inRunningRange, runningRanges_of_idle (s := s.idle) rfl]

/-- Outside the running destination range a read does what it does while idle. -/
theorem hostMemRead_eq_idle {s : State} {a : Nat} (hr : inRunningDst s a = false) :
    hostMemRead s a = mapNext (fun t => { t with status := s.status }) (hostMemRead s.idle a) := by
  have hri := inRunningDst_idle s a
  by_cases ha : a < s.cfg.memBytes
  · cases hb : Memory.get s.mem a with
    | none => rw [hostMemRead_none ha hr hb, hostMemRead_none (s := s.idle) ha hri hb]; rfl
    | some b => rw [hostMemRead_some ha hr hb, hostMemRead_some (s := s.idle) ha hri hb]; rfl
  · have ha := Nat.le_of_not_lt ha
    rw [hostMemRead_outside ha, hostMemRead_outside (s := s.idle) ha]; rfl

/-- Outside both running ranges a write does what it does while idle. -/
theorem hostMemWrite_eq_idle {s : State} {a : Nat} (v : Byte) (hr : inRunningRange s a = false) :
    hostMemWrite s a v = mapNext (fun t => { t with status := s.status }) (hostMemWrite s.idle a v) := by
  have hri := inRunningRange_idle s a
  by_cases ha : a < s.cfg.memBytes
  · rw [hostMemWrite_plain v ha hr, hostMemWrite_plain (s := s.idle) v ha hri]; rfl
  · have ha := Nat.le_of_not_lt ha
    rw [hostMemWrite_outside v ha, hostMemWrite_outside (s := s.idle) v ha]; rfl

/-! ## Two memories (R68) -/

/-- `MemRead` reads the bytes it is asked for and no other. -/
theorem Memory.readBytes_congr {m m' : Memory} {a n : Nat}
    (h : ∀ j < n, Memory.get m (a + j) = Memory.get m' (a + j)) :
    Memory.readBytes m a n = Memory.readBytes m' a n := by
  refine Option.ext fun s => ?_
  rw [Memory.readBytes_eq_some_iff, Memory.readBytes_eq_some_iff]
  exact and_congr_right fun hl => forall₂_congr fun j hj => by rw [h j (hl ▸ hj)]

/-- One sequence written to two memories: a byte keeps its value in both, or both then hold the same. -/
theorem Memory.get_writeBytes_alike (m m' : Memory) (a : Nat) (bs : List Byte) (k : Nat) :
    (Memory.get (Memory.writeBytes m a bs) k = Memory.get m k ∧
      Memory.get (Memory.writeBytes m' a bs) k = Memory.get m' k) ∨
    Memory.get (Memory.writeBytes m' a bs) k = Memory.get (Memory.writeBytes m a bs) k := by
  by_cases h : k < a ∨ a + bs.length ≤ k
  · exact .inl ⟨Memory.get_writeBytes_outside m a bs h, Memory.get_writeBytes_outside m' a bs h⟩
  · obtain ⟨j, rfl⟩ : ∃ j, k = a + j := ⟨k - a, by omega⟩
    have hj : j < bs.length := by omega
    rw [Memory.get_writeBytes_inside m a bs hj, Memory.get_writeBytes_inside m' a bs hj]
    exact .inr rfl

/-- `t` and `u`, reached from `s` and from `s` with the `MEM` `other`, differ in `MEM` only, and there each byte is as it
was in both, or the same in both. -/
def State.WritesAlike (s : State) (other : Memory) (t u : State) : Prop :=
  u = { t with mem := u.mem } ∧
    ∀ a, (Memory.get t.mem a = Memory.get s.mem a ∧ Memory.get u.mem a = Memory.get other a) ∨
      Memory.get u.mem a = Memory.get t.mem a

/-- An outcome related to a next state is a next state. -/
theorem next_of_outcomeRel {R : State → State → Prop} {t : State} {b : Result} (h : OutcomeRel R (.next t) b) :
    ∃ u, b = .next u ∧ R t u := by
  cases b with
  | next u => exact ⟨u, rfl, h⟩
  | fault e => exact h.elim
  | refused e => exact h.elim

/-- A command reads `MEM` in its source range only: with another `MEM` that agrees there it has the same outcome and
writes the same bytes. -/
theorem exec_writesAlike (s : State) (i : Instr) (other : Memory)
    (h : ∀ src dst, messageRanges i s = some (src, dst) →
      ∀ a, src.has a = true → Memory.get other a = Memory.get s.mem a) :
    OutcomeRel (s.WritesAlike other) (exec i s) (exec i { s with mem := other }) := by
  have kept : ∀ a, (Memory.get s.mem a = Memory.get s.mem a ∧ Memory.get other a = Memory.get other a) ∨
      Memory.get other a = Memory.get s.mem a := fun a => .inl ⟨rfl, rfl⟩
  have stored := Memory.get_writeBytes_alike s.mem other s.dst.toNat
  refine exec_rel rfl rfl rfl rfl rfl rfl (fun _ => rfl) (fun hm => ?_) (fun e => ⟨rfl, kept⟩)
    (fun x sc sc' _ hsc => ?_) (fun bs k sc sc' _ hsc => ?_) (fun bs sc sc' _ hsc => ?_)
  · obtain ⟨dst, hr⟩ := messageRanges_source hm
    refine Memory.readBytes_congr fun j hj => (h _ _ hr _ ?_).symm
    exact (MemRange.has_eq_true_iff ..).2 ⟨Nat.le_add_right .., Nat.add_lt_add_left hj _⟩
  · obtain rfl := hsc rfl
    exact ⟨rfl, kept⟩
  · obtain rfl := hsc rfl
    exact ⟨rfl, stored bs⟩
  · obtain rfl := hsc rfl
    exact ⟨rfl, stored bs⟩

/-- A command without ranges leaves `MEM` alone. -/
theorem exec_mem_of_no_ranges {i : Instr} {s t : State} (h : exec i s = .next t) (hi : messageRanges i s = none) :
    t.mem = s.mem := by
  rcases exec_cases h with ⟨e, rfl⟩ | ⟨x, sc, -, -, rfl⟩ | ⟨n, d, bs, sc, hr, -⟩
  · rfl
  · rfl
  · exact absurd (hi.symm.trans hr) nofun

/-- A message command leaves every byte outside its destination range alone. -/
theorem exec_get_outside_dst {i : Instr} {s t : State} {src dst : MemRange} {a : Nat} (h : exec i s = .next t)
    (hr : messageRanges i s = some (src, dst)) (ha : dst.has a = false) :
    Memory.get t.mem a = Memory.get s.mem a := by
  rcases exec_cases h with ⟨e, rfl⟩ | ⟨x, sc, -, -, rfl⟩ | ⟨n, d, bs, sc, hr', -, hd, -, ht⟩
  · rfl
  · rfl
  · obtain ⟨-, rfl⟩ := Prod.mk.inj (Option.some.inj (hr.symm.trans hr'))
    have hmem : t.mem = Memory.writeBytes s.mem s.dst.toNat bs := by
      rcases ht with ⟨k, -, rfl⟩ | ⟨-, rfl⟩ <;> rfl
    rw [hmem]
    have hout : a < s.dst.toNat ∨ s.dst.toNat + d ≤ a := (MemRange.has_eq_false_iff ..).1 ha
    exact Memory.get_writeBytes_outside _ _ _ (by omega)

end Sys2Proof.Machine
end

section
/-! The statements of 20_memory.md about hazards, frames and bus errors. -/

namespace Sys2Proof.Machine

/-- Settles O22: the running ranges are those of the decoded command, and outside them the port does what it does while
idle. -/
theorem memHazardsWhileBusy : Obligations.MemHazardsWhileBusy := by
  refine ⟨fun s src dst a v hr ha => ⟨fun hd => ?_, fun hsd => ?_⟩, fun s a v => ⟨fun h => ?_, fun h => ?_⟩,
    fun s i hb hi => ?_⟩
  · exact hostMemRead_running ha ((inRunningDst_of_running hr a).trans hd)
  · refine hostMemWrite_running v ha ((inRunningRange_of_running hr a).trans ?_)
    rwa [Bool.or_eq_true]
  · exact hostMemRead_eq_idle ((inRunningDst_eq_false_iff s a).2 h)
  · exact hostMemWrite_eq_idle v ((inRunningRange_eq_false_iff s a).2 h)
  · rw [runningRanges_of_busy hb hi, messageRanges_eq_none_iff]

/-- Settles O49: the writes by the inversion of `exec`, the reads by two runs on memories that agree on the source
range. -/
theorem commandsTouchOnlyTheirRanges : Obligations.CommandsTouchOnlyTheirRanges := by
  refine ⟨fun s t i h => ⟨exec_mem_of_no_ranges h, fun src dst hr a ha => exec_get_outside_dst h hr ha⟩,
    fun s t i other h hsrc => ?_⟩
  have hrel := exec_writesAlike s i other hsrc
  rw [h] at hrel
  exact next_of_outcomeRel hrel

/-- Settles O18: the port accepts no such access. -/
theorem oddAccessesGetABusError : Obligations.OddAccessesGetABusError := by
  intro s offset width v h
  have hp : portAccepts offset width = false := by
    rw [← Bool.not_eq_true, portAccepts_eq_true_iff, not_and_or]
    exact h
  simp only [hostAccess, hp]
  exact ⟨rfl, rfl⟩

end Sys2Proof.Machine
end

section
/-! The fields of a command word, what the rows of the opcode map ask of them, and what the decoder makes of them
(30_encoding.md R70 to R79). -/

namespace Sys2Proof

/-! ## A word is its fields (R70) -/

/-- The fields, the topmost first, make up the word. -/
theorem append_fields (w : Word) :
    fieldReservedHigh w ++ fieldKb w ++ fieldReservedLow w ++ fieldRidx w ++ fieldOp w = w := by
  simp only [fieldReservedHigh, fieldKb, fieldReservedLow, fieldRidx, fieldOp]
  repeat rw [BitVec.extractLsb'_append_extractLsb'_eq_extractLsb' (by decide)]
  exact BitVec.extractLsb'_eq_self

/-- The same with bits 15:8 as one group, as the layer commands' pattern has them. -/
theorem append_fields_grouped (w : Word) :
    fieldReservedHigh w ++ fieldKb w ++ (fieldReservedLow w ++ fieldRidx w) ++ fieldOp w = w := by
  simp only [fieldReservedHigh, fieldKb, fieldReservedLow, fieldRidx, fieldOp]
  repeat rw [BitVec.extractLsb'_append_extractLsb'_eq_extractLsb' (by decide)]
  exact BitVec.extractLsb'_eq_self

/-- Two words are equal when each of their fields is. -/
theorem word_eq_iff_fields (v w : Word) : v = w ↔
    fieldReservedHigh v = fieldReservedHigh w ∧ fieldKb v = fieldKb w ∧ fieldReservedLow v = fieldReservedLow w ∧
      fieldRidx v = fieldRidx w ∧ fieldOp v = fieldOp w := by
  constructor
  · rintro rfl
    exact ⟨rfl, rfl, rfl, rfl, rfl⟩
  · rintro ⟨hh, hk, hl, hr, ho⟩
    rw [← append_fields v, hh, hk, hl, hr, ho, append_fields]

/-- A word without reserved bits and `RIDX` is the layer command's word of its `OP` and `KB`. -/
theorem layerWord_fields {w : Word} (hh : fieldReservedHigh w = 0) (hl : fieldReservedLow w = 0)
    (hr : fieldRidx w = 0) : layerWord (fieldOp w) (fieldKb w) = w := by
  conv_rhs => rw [← append_fields_grouped w, hh, hl, hr]
  rfl

/-- A word without reserved bits and `KB` is the round command's word of its `OP` and `RIDX`. -/
theorem roundWord_fields {w : Word} (hh : fieldReservedHigh w = 0) (hl : fieldReservedLow w = 0)
    (hk : fieldKb w = 0) : roundWord (fieldOp w) (fieldRidx w).toFin = w := by
  conv_rhs => rw [← append_fields w, hh, hl, hk]
  rfl

/-- A word that is 0 above `OP` is the plain word of its `OP`. -/
theorem plainWord_fields {w : Word} (hh : fieldReservedHigh w = 0) (hl : fieldReservedLow w = 0)
    (hr : fieldRidx w = 0) (hk : fieldKb w = 0) : plainWord (fieldOp w) = w := by
  conv_rhs => rw [← append_fields w, hh, hl, hr, hk]
  rfl

/-! ## The rows of the opcode map (R77) -/

/-- An unassigned `OP`, a reserved bit, or a field its command does not use that is not 0 (R76, R78). -/
def IllegalFields (w : Word) : Prop :=
  fieldOp w ∉ [0x01, 0x02, 0x03, 0x04, 0x05, 0x08, 0x09, 0x10, 0x11, 0x20, 0x21, 0x22, 0x23] ∨
    fieldReservedHigh w ≠ 0 ∨ fieldReservedLow w ≠ 0 ∨
    (fieldRidx w ≠ 0 ∧ fieldOp w ≠ 0x08 ∧ fieldOp w ≠ 0x09) ∨
    (fieldKb w ≠ 0 ∧ fieldOp w ∉ [0x01, 0x02, 0x03, 0x04, 0x05])

/-- What a row with this match word asks of the fields of `w`: its `OP`, no reserved bit, and no field its command does
not use. -/
def FieldsFit (w matchBits : Word) : Prop :=
  fieldReservedHigh w = 0 ∧
    (fieldKb w = 0 ∨ fieldOp matchBits ∈ [0x01, 0x02, 0x03, 0x04, 0x05]) ∧
    fieldReservedLow w = 0 ∧
    (fieldRidx w = 0 ∨ fieldOp matchBits = 0x08 ∨ fieldOp matchBits = 0x09) ∧
    fieldOp w = fieldOp matchBits

/-- A row's match word is 0 above `OP`. Its mask covers `OP` and the reserved bits, `RIDX` but for the round commands,
and `KB` but for the layer commands. -/
theorem opcodeTable_fields : ∀ row ∈ opcodeTable,
    fieldReservedHigh row.matchBits = 0 ∧ fieldKb row.matchBits = 0 ∧ fieldReservedLow row.matchBits = 0 ∧
    fieldRidx row.matchBits = 0 ∧
    fieldReservedHigh row.maskBits = BitVec.allOnes 8 ∧ fieldReservedLow row.maskBits = BitVec.allOnes 4 ∧
    fieldOp row.maskBits = BitVec.allOnes 8 ∧
    fieldRidx row.maskBits =
      (if fieldOp row.matchBits = 0x08 ∨ fieldOp row.matchBits = 0x09 then 0 else BitVec.allOnes 4) ∧
    fieldKb row.maskBits =
      (if fieldOp row.matchBits ∈ [0x01, 0x02, 0x03, 0x04, 0x05] then 0 else BitVec.allOnes 8) := by
  decide

/-- The assigned values of `OP` are those of the rows. -/
theorem opcodeTable_ops : opcodeTable.map (fun row => fieldOp row.matchBits) =
    [0x01, 0x02, 0x03, 0x04, 0x05, 0x08, 0x09, 0x10, 0x11, 0x20, 0x21, 0x22, 0x23] := by
  decide

/-- No two rows have the same `OP`. -/
theorem opRow_eq_of_fieldOp_eq : ∀ r₁ ∈ opcodeTable, ∀ r₂ ∈ opcodeTable,
    fieldOp r₁.matchBits = fieldOp r₂.matchBits → r₁ = r₂ := by
  decide

/-- The fields of a masked word are the masked fields. -/
theorem selects_iff_masked_fields (row : OpRow) (w : Word) : row.selects w = true ↔
    fieldReservedHigh w &&& fieldReservedHigh row.maskBits = fieldReservedHigh row.matchBits ∧
    fieldKb w &&& fieldKb row.maskBits = fieldKb row.matchBits ∧
    fieldReservedLow w &&& fieldReservedLow row.maskBits = fieldReservedLow row.matchBits ∧
    fieldRidx w &&& fieldRidx row.maskBits = fieldRidx row.matchBits ∧
    fieldOp w &&& fieldOp row.maskBits = fieldOp row.matchBits := by
  rw [OpRow.selects, decide_eq_true_iff, word_eq_iff_fields]
  simp only [fieldReservedHigh, fieldKb, fieldReservedLow, fieldRidx, fieldOp, BitVec.extractLsb'_and]

/-- A field under a mask that leaves it out on a condition is 0 when the field is, or when the condition holds. -/
theorem and_ite_allOnes_eq_zero_iff {n : Nat} (x : BitVec n) (p : Prop) [Decidable p] :
    x &&& (if p then 0 else BitVec.allOnes n) = 0 ↔ x = 0 ∨ p := by
  split_ifs with h
  · simp only [h, or_true, iff_true]
    exact BitVec.and_zero
  · rw [BitVec.and_allOnes, or_iff_left h]

/-- A word selects a row exactly when its fields fit it. -/
theorem selects_iff_fieldsFit {row : OpRow} (hrow : row ∈ opcodeTable) (w : Word) :
    row.selects w = true ↔ FieldsFit w row.matchBits := by
  obtain ⟨hmh, hmk, hml, hmr, hh, hl, ho, hr, hk⟩ := opcodeTable_fields row hrow
  rw [selects_iff_masked_fields, hh, hl, ho, hr, hk, hmh, hmk, hml, hmr, and_ite_allOnes_eq_zero_iff,
    and_ite_allOnes_eq_zero_iff]
  simp only [BitVec.and_allOnes, FieldsFit]

/-- Some row has this `OP` exactly when the `OP` is assigned. -/
theorem exists_row_fieldOp_iff (op : BitVec 8) : (∃ row ∈ opcodeTable, fieldOp row.matchBits = op) ↔
    op ∈ [0x01, 0x02, 0x03, 0x04, 0x05, 0x08, 0x09, 0x10, 0x11, 0x20, 0x21, 0x22, 0x23] := by
  rw [← opcodeTable_ops, List.mem_map]

/-- The words that fit no row are those with illegal fields: what the row of the word's own `OP` asks is that none of its
fields is illegal, and no other row fits. -/
theorem illegalFields_iff_not_fieldsFit (w : Word) :
    IllegalFields w ↔ ∀ row ∈ opcodeTable, ¬FieldsFit w row.matchBits := by
  constructor
  · rintro h row hrow ⟨hh, hk, hl, hr, ho⟩
    rw [← ho] at hk hr
    rcases h with hop | hh' | hl' | ⟨hr', h8, h9⟩ | ⟨hk', hop⟩
    · exact hop ((exists_row_fieldOp_iff _).1 ⟨row, hrow, ho.symm⟩)
    · exact hh' hh
    · exact hl' hl
    · exact hr.elim hr' (·.elim h8 h9)
    · exact hk.elim hk' hop
  · intro h
    by_contra hlegal
    simp only [IllegalFields, not_or, not_and_or, not_not] at hlegal
    obtain ⟨hop, hh, hl, hr, hk⟩ := hlegal
    obtain ⟨row, hrow, ho⟩ := (exists_row_fieldOp_iff _).2 hop
    rw [← ho] at hr hk
    exact h row hrow ⟨hh, hk, hl, hr, ho.symm⟩

/-- The words that select no row are those with illegal fields. -/
theorem illegalFields_iff_selects_none (w : Word) :
    IllegalFields w ↔ ∀ row ∈ opcodeTable, row.selects w = false := by
  rw [illegalFields_iff_not_fieldsFit]
  refine forall₂_congr fun row hrow => ?_
  rw [← selects_iff_fieldsFit hrow, Bool.not_eq_true]

/-- No two rows select the same word (R77): the word's `OP` is that of both. -/
theorem opRow_eq_of_selects {w : Word} {r₁ r₂ : OpRow} (h₁ : r₁ ∈ opcodeTable) (h₂ : r₂ ∈ opcodeTable)
    (hs₁ : r₁.selects w = true) (hs₂ : r₂.selects w = true) : r₁ = r₂ := by
  obtain ⟨-, -, -, -, ho₁⟩ := (selects_iff_fieldsFit h₁ w).1 hs₁
  obtain ⟨-, -, -, -, ho₂⟩ := (selects_iff_fieldsFit h₂ w).1 hs₂
  exact opRow_eq_of_fieldOp_eq r₁ h₁ r₂ h₂ (ho₁.symm.trans ho₂)

/-- The word of a command selects the row of its name. -/
theorem encode_selects (i : Instr) :
    ∃ row ∈ opcodeTable, row.mnemonic = i.mnemonic ∧ row.selects (encode i) = true := by
  cases i with
  | subf kb => exact (Laws.Encoding.subf kb).2
  | subi kb => exact (Laws.Encoding.subi kb).2
  | perf kb => exact (Laws.Encoding.perf kb).2
  | peri kb => exact (Laws.Encoding.peri kb).2
  | mix kb => exact (Laws.Encoding.mix kb).2
  | rndf r => exact (Laws.Encoding.rndf r).2
  | rndi r => exact (Laws.Encoding.rndi r).2
  | encb => exact Laws.Encoding.encb.2
  | decb => exact Laws.Encoding.decb.2
  | pad => exact Laws.Encoding.pad.2
  | unpad => exact Laws.Encoding.unpad.2
  | enc => exact Laws.Encoding.enc.2
  | dec => exact Laws.Encoding.dec.2

/-! ## The decoder (R79) -/

/-- What a decoding of `w` must be: a command whose word is `w`, or an error for a word with illegal fields. -/
def DecodesRight (w : Word) : Except Illegal Instr → Prop
  | .ok i => encode i = w
  | .error _ => IllegalFields w

/-- The word has `op` in `OP` and no reserved bit: what the decoder knows when it looks at the operands. -/
structure HasOp (w : Word) (op : BitVec 8) : Prop where
  op_eq : fieldOp w = op
  high : fieldReservedHigh w = 0
  low : fieldReservedLow w = 0

/-- A layer command's arm of the decoder. -/
theorem decodeLayer_right {w : Word} {op : BitVec 8} {mk : Byte → Instr} (h : HasOp w op)
    (hop : op ≠ 0x08 ∧ op ≠ 0x09) (henc : ∀ kb, encode (mk kb) = layerWord op kb) :
    DecodesRight w (decodeLayer w mk) := by
  obtain ⟨rfl, hh, hl⟩ := h
  unfold decodeLayer
  split_ifs with hr
  · exact (henc _).trans (layerWord_fields hh hl hr)
  · exact .inr (.inr (.inr (.inl ⟨hr, hop⟩)))

/-- A round command's arm. -/
theorem decodeRound_right {w : Word} {op : BitVec 8} {mk : Fin 16 → Instr} (h : HasOp w op)
    (hop : op ∉ [0x01, 0x02, 0x03, 0x04, 0x05]) (henc : ∀ r, encode (mk r) = roundWord op r) :
    DecodesRight w (decodeRound w mk) := by
  obtain ⟨rfl, hh, hl⟩ := h
  unfold decodeRound
  split_ifs with hk
  · exact (henc _).trans (roundWord_fields hh hl hk)
  · exact .inr (.inr (.inr (.inr ⟨hk, hop⟩)))

/-- The arm of a block or message command. -/
theorem decodePlain_right {w : Word} {op : BitVec 8} {i : Instr} (h : HasOp w op)
    (hop : (op ≠ 0x08 ∧ op ≠ 0x09) ∧ op ∉ [0x01, 0x02, 0x03, 0x04, 0x05]) (henc : encode i = plainWord op) :
    DecodesRight w (decodePlain w i) := by
  obtain ⟨rfl, hh, hl⟩ := h
  unfold decodePlain
  split_ifs with hr hk
  · exact .inr (.inr (.inr (.inl ⟨hr, hop.1⟩)))
  · exact .inr (.inr (.inr (.inr ⟨hk, hop.2⟩)))
  · exact henc.trans (plainWord_fields hh hl (not_not.1 hr) (not_not.1 hk))

/-- What the decoder can do: it gives a command whose word it was given, or refuses a word with illegal fields. -/
theorem decode_right (w : Word) : DecodesRight w (decode w) := by
  unfold decode
  split_ifs with hres
  · exact .inr (hres.elim .inl (.inr ∘ .inl))
  · obtain ⟨hh, hl⟩ : fieldReservedHigh w = 0 ∧ fieldReservedLow w = 0 := by simpa using hres
    split
    case h_1 hop | h_2 hop | h_3 hop | h_4 hop | h_5 hop =>
      exact decodeLayer_right ⟨hop, hh, hl⟩ (by decide) fun _ => rfl
    case h_6 hop | h_7 hop => exact decodeRound_right ⟨hop, hh, hl⟩ (by decide) fun _ => rfl
    case h_8 hop | h_9 hop | h_10 hop | h_11 hop | h_12 hop | h_13 hop =>
      exact decodePlain_right ⟨hop, hh, hl⟩ (by decide) rfl
    case h_14 => exact .inl (by simp_all)

/-- A word that decodes is the word of its command. -/
theorem encode_of_decode {w : Word} {i : Instr} (h : decode w = .ok i) : encode i = w := by
  have hr := decode_right w
  rwa [h] at hr

/-- A word the decoder refuses has illegal fields. -/
theorem illegalFields_of_decode {w : Word} {e : Illegal} (h : decode w = .error e) : IllegalFields w := by
  have hr := decode_right w
  rwa [h] at hr

/-- A word that decodes selects the row of its command's name. -/
theorem selects_of_decode {w : Word} {i : Instr} (h : decode w = .ok i) :
    ∃ row ∈ opcodeTable, row.mnemonic = i.mnemonic ∧ row.selects w = true := by
  rw [← encode_of_decode h]
  exact encode_selects i

/-- A word that selects a row decodes to a command of the row's name: the row of the command it decodes to is that row. -/
theorem decode_of_selects {w : Word} {row : OpRow} (hrow : row ∈ opcodeTable) (hs : row.selects w = true) :
    ∃ i, decode w = .ok i ∧ i.mnemonic = row.mnemonic := by
  cases hd : decode w with
  | error e =>
    have hn := (illegalFields_iff_selects_none w).1 (illegalFields_of_decode hd) row hrow
    exact absurd (hs.symm.trans hn) nofun
  | ok i =>
    obtain ⟨row', hrow', hname, hs'⟩ := selects_of_decode hd
    obtain rfl := opRow_eq_of_selects hrow' hrow hs' hs
    exact ⟨i, rfl, hname.symm⟩

/-- The decoder refuses a word that selects no row. -/
theorem decode_of_selects_none {w : Word} (h : ∀ row ∈ opcodeTable, row.selects w = false) :
    ∃ e, decode w = .error e := by
  cases hd : decode w with
  | error e => exact ⟨e, rfl⟩
  | ok i =>
    obtain ⟨row, hrow, -, hs⟩ := selects_of_decode hd
    exact absurd (hs.symm.trans (h row hrow)) nofun

end Sys2Proof
end

section
/-! A command written to `CMD` and completed at the core's turn, and the statements of 30_encoding.md about the opcode map
and illegal words. -/

namespace Sys2Proof.Machine

/-- A run of one step is the step. -/
theorem run_one (s : State) : core.run 1 s = step s := by
  simp only [core, Host.Core.run]
  cases step s <;> rfl

/-- A step that takes an access of the host. -/
theorem step_host {s : State} {a : Access} {rest : List Event} (h : s.inbox = .host a :: rest) :
    step s = hostAccess a { s with inbox := rest } := by
  simp only [step, runEvent, State.popInbox, h, List.tail_cons]

/-- A step that takes the core's turn. -/
theorem step_coreTurn {s : State} {rest : List Event} (h : s.inbox = .coreTurn :: rest) :
    step s = coreTurn { s with inbox := rest } := by
  simp only [step, runEvent, State.popInbox, h, List.tail_cons]

/-- A word written to `CMD` while idle, then the core's turn: two steps complete the accepted word, legal or not (R155,
R156). -/
theorem run_two_of_cmdWrite {s : State} {w : Word} {rest : List Event} (hb : s.status.busy = false)
    (hi : s.inbox = HostProgram.events (HostProgram.w .cmd w) ++ .coreTurn :: rest) :
    core.run 2 s = completeCommand (State.accept { s with resp := .taken, inbox := rest } w) := by
  have haccept : step s = .next (State.accept { s with resp := .taken, inbox := .coreTurn :: rest } w) := by
    rw [step_host hi, hostAccess_regWrite, writeReg_cmd_of_idle]
    · rfl
    · exact hb
  rw [run_succ_of_step 1 haccept, run_one, step_coreTurn rfl]
  rfl

/-- An accepted word that the decoder refuses completes with `ERR_ILLEGAL_CMD`; `BUSY` is then back at its value while
idle (R78). -/
theorem completeCommand_accept_of_error {s : State} {w : Word} {e : Illegal} (hb : s.status.busy = false)
    (h : decode w = .error e) :
    completeCommand (s.accept w) = .next { s with curCmd := w, err := ErrCode.illegalCmd.code, outLen := 0 } := by
  simp only [completeCommand, State.accept_curCmd, h]
  simp only [State.accept, State.raise, ← hb]

/-- Settles O6: the fields a row asks for are the legal ones, and the core's turn completes a word the decoder refuses
with `ERR_ILLEGAL_CMD`. -/
theorem illegalWordCompletesWithError : Obligations.IllegalWordCompletesWithError := by
  refine ⟨illegalFields_iff_selects_none, fun s w rest hsel hb hi => ?_⟩
  obtain ⟨e, he⟩ := decode_of_selects_none hsel
  exact (run_two_of_cmdWrite hb hi).trans (completeCommand_accept_of_error hb he)

/-- Settles O9: a word decodes to the command of the row it selects, and the rows differ in `OP`. -/
theorem opcodeMapIsTheDecoder : Obligations.OpcodeMapIsTheDecoder := by
  refine ⟨fun w n => ⟨?_, ?_⟩, fun w r₁ h₁ r₂ h₂ => opRow_eq_of_selects h₁ h₂⟩
  · rintro ⟨i, hi, rfl⟩
    exact selects_of_decode hi
  · rintro ⟨row, hrow, rfl, hs⟩
    exact decode_of_selects hrow hs

end Sys2Proof.Machine
end

section
/-! The layer commands: their equations, the substitution nibble by nibble, and commands completed one after another
(40_layers.md). -/

namespace Sys2Proof.Machine

/-! ## The equations of the layer commands (R95, R96, R99, R100, R102) -/

theorem exec_subf (k : Byte) (s : State) :
    exec (.subf k) s = .next (s.setBlk (substFwdBlock s.blk k)).complete := rfl

theorem exec_subi (k : Byte) (s : State) :
    exec (.subi k) s = .next (s.setBlk (substInvBlock s.blk k)).complete := rfl

theorem exec_perf (k : Byte) (s : State) :
    exec (.perf k) s = .next (s.setBlk (permFwd s.cfg.permGen s.blk k)).complete := rfl

theorem exec_peri (k : Byte) (s : State) :
    exec (.peri k) s = .next (s.setBlk (permInv s.cfg.permGen s.blk k)).complete := rfl

theorem exec_mix (k : Byte) (s : State) : exec (.mix k) s = .next (s.setBlk (mix s.blk k)).complete := rfl

/-- A command that does no more than write `BLK` and complete changes only `BLK` and `BUSY` (R105). -/
theorem State.complete_setBlk_frame (s : State) (x : Block) :
    (s.setBlk x).complete =
      { s with blk := (s.setBlk x).complete.blk, status := { s.status with busy := false } } := rfl

/-! ## Commands one after another -/

@[simp] theorem execAll_nil (s : State) : execAll [] s = .next s := rfl

/-- After a command that completes in `t`, the rest run from `t`. -/
theorem execAll_cons_of_next {i : Instr} {s t : State} (h : exec i s = .next t) (is : List Instr) :
    execAll (i :: is) s = execAll is t := by
  simp only [execAll, h]

/-- Two commands, each of which completes. -/
theorem execAll_pair_of_next {i j : Instr} {s t u : State} (hi : exec i s = .next t) (hj : exec j t = .next u) :
    execAll [i, j] s = .next u := by
  rw [execAll_cons_of_next hi, execAll_cons_of_next hj, execAll_nil]

/-! ## The substitution by nibbles (R90 to R92) -/

/-- `swap_nibbles` puts the low nibble above the high one (R90). -/
theorem swapNibbles_eq_append (b : Byte) : swapNibbles b = b.extractLsb' 0 4 ++ b.extractLsb' 4 4 := by
  revert b; decide

/-- `subst_fwd({bh, bl}, {kh, kl}) = {bl xor kl, bh xor kh}` (R92). -/
theorem substFwd_eq_append (b k : Byte) :
    substFwd b k =
      (b.extractLsb' 0 4 ^^^ k.extractLsb' 0 4) ++ (b.extractLsb' 4 4 ^^^ k.extractLsb' 4 4) := by
  rw [substFwd, swapNibbles_eq_append, BitVec.extractLsb'_xor, BitVec.extractLsb'_xor]

/-- `subst_inv({bh, bl}, {kh, kl}) = {bl xor kh, bh xor kl}` (R92). -/
theorem substInv_eq_append (b k : Byte) :
    substInv b k =
      (b.extractLsb' 0 4 ^^^ k.extractLsb' 4 4) ++ (b.extractLsb' 4 4 ^^^ k.extractLsb' 0 4) := by
  have hk : k.extractLsb' 4 4 ++ k.extractLsb' 0 4 = k := BitVec.extractLsb'_append_extractLsb' (w := 4)
  calc substInv b k
      = (b.extractLsb' 0 4 ++ b.extractLsb' 4 4) ^^^ (k.extractLsb' 4 4 ++ k.extractLsb' 0 4) := by
        rw [substInv, swapNibbles_eq_append, hk]
    _ = _ := BitVec.xor_append

end Sys2Proof.Machine
end

section
/-! The statements of 40_layers.md about the layer commands. -/

namespace Sys2Proof.Machine

/-- Settles O27: `perm_inv` puts byte `i` at `P[i]`. -/
theorem periMovesLanesBack : Obligations.PeriMovesLanesBack := fun k s =>
  ⟨_, exec_peri k s, s.complete_setBlk_frame _, fun hp i => permInv_getElem hp s.blk i⟩

/-- Settles O30: the contract of `perm_fwd` and `perm_inv`, which `PERF` and `PERI` put in `BLK`. -/
theorem permutationContract : Obligations.PermutationContract := by
  intro k s hp
  obtain ⟨hinv, hfwd, hpermFwd, hpermInv⟩ := permContract_of_bijective hp s.blk
  exact ⟨⟨_, execAll_pair_of_next (exec_perf k s) (exec_peri k _), hinv⟩,
    ⟨_, execAll_pair_of_next (exec_peri k s) (exec_perf k _), hfwd⟩,
    ⟨_, exec_perf k s, hpermFwd⟩,
    ⟨_, exec_peri k s, hpermInv⟩⟩

/-- Settles O24: `SUBF` puts `subst_fwd` in every lane, nibble by nibble that of R92. -/
theorem subfSubstitutesEveryLane : Obligations.SubfSubstitutesEveryLane := fun k s =>
  ⟨_, exec_subf k s, s.complete_setBlk_frame _, fun i =>
    (substFwdBlock_getElem s.blk k i).trans (substFwd_eq_append _ k)⟩

/-- Settles O25: `SUBI` puts `subst_inv` in every lane, nibble by nibble that of R92. -/
theorem subiSubstitutesBackEveryLane : Obligations.SubiSubstitutesBackEveryLane := fun k s =>
  ⟨_, exec_subi k s, s.complete_setBlk_frame _, fun i =>
    (substInvBlock_getElem s.blk k i).trans (substInv_eq_append _ k)⟩

/-- Settles O28: `MIX` puts `mix` in `BLK`. -/
theorem mixXorsEveryLane : Obligations.MixXorsEveryLane := fun k s =>
  ⟨_, exec_mix k s, s.complete_setBlk_frame _, fun i => mix_getElem s.blk k i⟩

end Sys2Proof.Machine
end

section
/-! The rounds and the block cipher: each round and its inverse, the rounds one after another, and the closed form of
the block cipher (41_rounds.md). -/

namespace Sys2Proof.Machine

/-! ## Inverses (R91, R101, R112, R116) -/

theorem substInvBlock_substFwdBlock (x : Block) (k : Byte) : substInvBlock (substFwdBlock x k) k = x :=
  Block.ext fun i => by rw [substInvBlock_getElem, substFwdBlock_getElem, substInv_substFwd]

theorem substFwdBlock_substInvBlock (x : Block) (k : Byte) : substFwdBlock (substInvBlock x k) k = x :=
  Block.ext fun i => by rw [substFwdBlock_getElem, substInvBlock_getElem, substFwd_substInv]

theorem mix_mix (x : Block) (k : Byte) : mix (mix x k) k = x :=
  Block.ext fun i => by rw [mix_getElem, mix_getElem, xor_xor_cancel]

/-- `round_inv(round_fwd(x, k), k) = x` (R112). -/
theorem roundInv_roundFwd {g : PermGen} {k : Byte} (hp : Perm.Bijective (permOf g k)) (x : Block) :
    roundInv g (roundFwd g x k) k = x := by
  rw [roundInv, roundFwd, mix_mix, permInv_permFwd hp, substInvBlock_substFwdBlock]

/-- `round_fwd(round_inv(y, k), k) = y` (R112). -/
theorem roundFwd_roundInv {g : PermGen} {k : Byte} (hp : Perm.Bijective (permOf g k)) (y : Block) :
    roundFwd g (roundInv g y k) k = y := by
  rw [roundFwd, roundInv, substFwdBlock_substInvBlock, permFwd_permInv hp, mix_mix]

/-- Steps that each have an inverse are undone by the inverses in the reverse order. -/
theorem foldl_reverse_foldl {α β : Type} {f g : β → α → β} (h : ∀ b a, g (f b a) a = b) (l : List α) (b : β) :
    l.reverse.foldl g (l.foldl f b) = b := by
  induction l generalizing b with
  | nil => rfl
  | cons a l ih => simp [ih, h]

/-- The same where the steps run in the reverse order and their inverses in the order of the list. -/
theorem foldl_foldl_reverse {α β : Type} {f g : β → α → β} (h : ∀ b a, g (f b a) a = b) (l : List α) (b : β) :
    l.foldl g (l.reverse.foldl f b) = b := by
  simpa using foldl_reverse_foldl h l.reverse b

/-- `decrypt_block(encrypt_block(x, K), K) = x` (R116). -/
theorem decryptBlock_encryptBlock {g : PermGen} (hg : PermGen.Conforming g) (x K : Block) :
    decryptBlock g (encryptBlock g x K) K = x :=
  foldl_reverse_foldl (f := fun x rnd => roundFwd g x K[rnd]) (fun x rnd => roundInv_roundFwd (hg K[rnd]) x) _ x

/-- `encrypt_block(decrypt_block(y, K), K) = y` (R116). -/
theorem encryptBlock_decryptBlock {g : PermGen} (hg : PermGen.Conforming g) (y K : Block) :
    encryptBlock g (decryptBlock g y K) K = y :=
  foldl_foldl_reverse (f := fun y rnd => roundInv g y K[rnd]) (fun y rnd => roundFwd_roundInv (hg K[rnd]) y) _ y

/-! ## The round commands one after another (R113, R114) -/

/-- A command for each round index that completes with one round on `BLK`: those of a list, one after another, put the
rounds in `BLK` in that order. -/
theorem execAll_map_blk {op : Fin 16 → Instr} {round : PermGen → Block → Byte → Block}
    (hop : ∀ {s : State}, s.keyLen = 16 → ∀ r : Fin 16,
      exec (op r) s = .next (s.setBlk (round s.cfg.permGen s.blk s.key[r])).complete)
    (l : List (Fin 16)) {s : State} (hk : s.keyLen = 16) :
    ∃ u, execAll (l.map op) s = .next u ∧ u.blk = l.foldl (fun x r => round s.cfg.permGen x s.key[r]) s.blk := by
  induction l generalizing s with
  | nil => exact ⟨s, rfl, rfl⟩
  | cons r l ih =>
    obtain ⟨u, hu, hblk⟩ := ih (s := (s.setBlk (round s.cfg.permGen s.blk s.key[r])).complete) hk
    exact ⟨u, (execAll_cons_of_next (hop hk r) _).trans hu, hblk⟩

/-- A command that does no more than write `BLK` and the internal registers and complete changes only these and `BUSY`
(R120). -/
theorem State.complete_setSched_setBlk_frame (s : State) (x : Block) (sc : Scheduler) :
    ((s.setBlk x).setSched sc).complete =
      { s with blk := x, sched := ((s.setBlk x).setSched sc).complete.sched,
               status := { s.status with busy := false } } := rfl

/-! ## The closed form (R117) -/

/-- `swap_nibbles` keeps a byte of two equal nibbles. -/
theorem swapNibbles_append_self (c : BitVec 4) : swapNibbles (c ++ c) = c ++ c := by
  revert c; decide

/-- A byte xored with its swapped self has the sum of its nibbles in both places. -/
theorem swapNibbles_xor_self (k : Byte) : swapNibbles k ^^^ k = nibbleSum k ++ nibbleSum k := by
  revert k; decide

/-- Substitution, then mixing with the same key byte (R117, item 1). -/
theorem substFwd_xor_eq_closedByteMap (k b : Byte) : substFwd b k ^^^ k = closedByteMap k b := by
  rw [substFwd, swapNibbles_xor, BitVec.xor_assoc, swapNibbles_xor_self, closedByteMap]

theorem roundFwd_getElem (g : PermGen) (x : Block) (k : Byte) (i : Fin 16) :
    (roundFwd g x k)[i] = closedByteMap k x[(permOf g k)[i]] := by
  rw [roundFwd, mix_getElem, permFwd_getElem, substFwdBlock_getElem, substFwd_xor_eq_closedByteMap]

/-- The byte map swaps the nibbles and adds `c(k)` to what was xored to both of them. -/
theorem closedByteMap_xor (k b : Byte) (c : BitVec 4) :
    closedByteMap k (b ^^^ (c ++ c)) = swapNibbles b ^^^ ((c ^^^ nibbleSum k) ++ (c ^^^ nibbleSum k)) := by
  rw [closedByteMap, swapNibbles_xor, swapNibbles_append_self, BitVec.xor_assoc, BitVec.xor_append]

/-- Two byte maps compose to an xor (R117, item 2). -/
theorem closedByteMap_closedByteMap (k₁ k₂ b : Byte) :
    closedByteMap k₂ (closedByteMap k₁ b) =
      b ^^^ ((nibbleSum k₁ ^^^ nibbleSum k₂) ++ (nibbleSum k₁ ^^^ nibbleSum k₂)) := by
  rw [closedByteMap.eq_def k₁ b, closedByteMap_xor, swapNibbles_swapNibbles]

/-- The byte maps of the rounds `l` swap the nibbles once a round and xor the sum of `c` to both of them. -/
theorem foldl_closedByteMap (K : Block) (l : List (Fin 16)) (b : Byte) (c : BitVec 4) :
    l.foldl (fun b r => closedByteMap K[r] b) (b ^^^ (c ++ c)) =
      swapNibbles^[l.length] b ^^^
        (l.foldl (fun c r => c ^^^ nibbleSum K[r]) c ++ l.foldl (fun c r => c ^^^ nibbleSum K[r]) c) := by
  induction l generalizing b c with
  | nil => rfl
  | cons r l ih =>
    simp only [List.foldl_cons, closedByteMap_xor, ih, List.length_cons, Function.iterate_succ_apply]

/-- Lane `i` after the rounds `l`: their byte maps, applied to the byte at the place where their permutations, the last
one first, lead from `i`. -/
theorem foldl_roundFwd_getElem (g : PermGen) (K : Block) (l : List (Fin 16)) (x : Block) (i : Fin 16) :
    (l.foldl (fun x r => roundFwd g x K[r]) x)[i] =
      l.foldl (fun b r => closedByteMap K[r] b) x[l.foldr (fun r j => (permOf g K[r])[j]) i] := by
  induction l generalizing x with
  | nil => rfl
  | cons r l ih =>
    rw [List.foldl_cons, ih, roundFwd_getElem]
    rfl

/-- The byte maps of the sixteen rounds, in order: the swaps of the nibbles cancel in pairs. -/
theorem foldl_finRange_closedByteMap (K : Block) (b : Byte) :
    (List.finRange 16).foldl (fun b r => closedByteMap K[r] b) b = b ^^^ (keySum K ++ keySum K) := by
  have hswap : Function.Involutive swapNibbles := swapNibbles_swapNibbles
  have h := foldl_closedByteMap K (List.finRange 16) b 0
  rw [List.length_finRange, hswap.iterate_even (by decide)] at h
  simpa [keySum] using h

/-- `encrypt_block(x, K)[i] = x[pi_K(i)] xor {C(K), C(K)}` (R117, item 3). -/
theorem encryptBlock_getElem (g : PermGen) (x K : Block) (i : Fin 16) :
    (encryptBlock g x K)[i] = x[positionOf g K i] ^^^ (keySum K ++ keySum K) := by
  rw [encryptBlock, foldl_roundFwd_getElem, foldl_finRange_closedByteMap]
  rfl

/-- `decrypt_block(y, K)[pi_K(i)] = y[i] xor {C(K), C(K)}` (R117, item 3). -/
theorem decryptBlock_getElem {g : PermGen} (hg : PermGen.Conforming g) (y K : Block) (i : Fin 16) :
    (decryptBlock g y K)[positionOf g K i] = y[i] ^^^ (keySum K ++ keySum K) := by
  have h := encryptBlock_getElem g (decryptBlock g y K) K i
  rw [encryptBlock_decryptBlock hg] at h
  rw [h, xor_xor_cancel]

/-! ## The key `00 01 .. 0f` (R117) -/

/-- The key `00 01 .. 0f`. -/
def countingKey : Block := Vector.ofFn fun i => BitVec.ofNat 8 i.val

theorem eq_countingKey {K : Block} (hK : ∀ i : Fin 16, K[i] = BitVec.ofNat 8 i.val) : K = countingKey :=
  Block.ext fun i => by rw [hK i]; simp [countingKey]

theorem keySum_countingKey : keySum countingKey = 0 := by decide

theorem positionOf_countingKey (i : Fin 16) :
    positionOf .lcgShuffle countingKey i = #v[1, 15, 4, 10, 11, 2, 0, 6, 7, 14, 5, 12, 13, 8, 3, 9][i] := by
  revert i; decide

end Sys2Proof.Machine
end

section
/-! The statements of 41_rounds.md about the round and block commands. -/

namespace Sys2Proof.Machine

/-- Settles O32: the key check is the front of each of these commands. -/
theorem keyLengthIsCheckedFirst : Obligations.KeyLengthIsCheckedFirst := by
  rintro s i hk (⟨r, rfl | rfl⟩ | rfl | rfl | rfl | rfl) <;> exact withKeyCheck_of_ne hk

/-- Settles O33: `round_fwd` is by definition the three layers in this order. -/
theorem rndfIsTheThreeLayers : Obligations.RndfIsTheThreeLayers := by
  refine fun r s => ⟨fun hk => keyLengthIsCheckedFirst s _ hk (.inl ⟨r, .inl rfl⟩), fun hk => ?_⟩
  have hlayers := (execAll_cons_of_next (exec_subf s.key[r] s) _).trans
    (execAll_pair_of_next (exec_perf s.key[r] _) (exec_mix s.key[r] _))
  refine ⟨_, _, exec_rndf_of_key hk r, hlayers, ?_⟩
  simp only [State.complete_blk, State.setBlk_blk, State.complete_cfg, State.setBlk_cfg]
  exact s.complete_setBlk_frame _

/-- Settles O35: each round undoes the other on `BLK`, and the first leaves `KEY_LEN`, `KEY` and the generator. -/
theorem roundInversesRestoreBlk : Obligations.RoundInversesRestoreBlk := by
  intro r s hk hg
  have hk' : ∀ x : Block, (s.setBlk x).complete.keyLen = 16 := fun _ => hk
  exact ⟨⟨_, execAll_pair_of_next (exec_rndf_of_key hk r) (exec_rndi_of_key (hk' _) r),
      by simp [roundInv_roundFwd (hg _)]⟩,
    ⟨_, execAll_pair_of_next (exec_rndi_of_key hk r) (exec_rndf_of_key (hk' _) r),
      by simp [roundFwd_roundInv (hg _)]⟩⟩

/-- Settles O36: `encrypt_block` is the forward rounds in the order of the commands. -/
theorem encbIsSixteenForwardRounds : Obligations.EncbIsSixteenForwardRounds := by
  refine fun s => ⟨fun hk => keyLengthIsCheckedFirst s _ hk (.inr (.inl rfl)), fun hk => ?_⟩
  obtain ⟨u, hu, hblk⟩ := execAll_map_blk (op := .rndf) (round := roundFwd) exec_rndf_of_key (List.finRange 16) hk
  refine ⟨_, u, exec_encb_of_key hk, hu, ?_⟩
  rw [hblk]
  exact s.complete_setSched_setBlk_frame _ _

/-- Settles O37: `decrypt_block` is the inverse rounds in the order of the commands. -/
theorem decbIsSixteenInverseRounds : Obligations.DecbIsSixteenInverseRounds := by
  refine fun s => ⟨fun hk => keyLengthIsCheckedFirst s _ hk (.inr (.inr (.inl rfl))), fun hk => ?_⟩
  obtain ⟨u, hu, hblk⟩ :=
    execAll_map_blk (op := .rndi) (round := roundInv) exec_rndi_of_key (List.finRange 16).reverse hk
  refine ⟨_, u, exec_decb_of_key hk, hu, ?_⟩
  rw [hblk]
  exact s.complete_setSched_setBlk_frame _ _

/-- Settles O38: each block command undoes the other on `BLK`, and the first leaves `KEY_LEN`, `KEY` and the generator. -/
theorem blockRoundTrip : Obligations.BlockRoundTrip := by
  intro s hk hg
  have hk' : ∀ (x : Block) (sc : Scheduler), ((s.setBlk x).setSched sc).complete.keyLen = 16 := fun _ _ => hk
  exact ⟨⟨_, execAll_pair_of_next (exec_encb_of_key hk) (exec_decb_of_key (hk' _ _)),
      by simp [decryptBlock_encryptBlock hg]⟩,
    ⟨_, execAll_pair_of_next (exec_decb_of_key hk) (exec_encb_of_key (hk' _ _)),
      by simp [encryptBlock_decryptBlock hg]⟩⟩

/-- Settles O39: the lanes of a round, of two byte maps and of the block commands, and the values for the printed key. -/
theorem blockClosedForm : Obligations.BlockClosedForm := by
  refine ⟨roundFwd_getElem, closedByteMap_closedByteMap,
    fun s hk => ⟨_, exec_encb_of_key hk, fun i => encryptBlock_getElem s.cfg.permGen s.blk s.key i⟩,
    fun s hk hg => ⟨_, exec_decb_of_key hk, fun i => decryptBlock_getElem hg s.blk s.key i⟩, fun K hK => ?_⟩
  obtain rfl := eq_countingKey hK
  exact ⟨keySum_countingKey, positionOf_countingKey⟩

end Sys2Proof.Machine
end

section
/-! The padding codec and the ECB functions on whole sequences: what `unpad` accepts, where block `q` of a ciphertext
comes from, and decryption undoing encryption (42_ecb.md R130 to R134, R145, R147). -/

namespace Sys2Proof.Machine

/-! ## Padding (R130 to R133) -/

/-- `unpad` removes `c` bytes of value `c`, for a `c` in 1..16 (R132). -/
theorem unpad_append_replicate (u : List Byte) {c : Nat} (h1 : 1 ≤ c) (h16 : c ≤ 16) :
    unpad (u ++ List.replicate c (BitVec.ofNat 8 c)) = some u := by
  have hlast : (u ++ List.replicate c (BitVec.ofNat 8 c)).getLast? = some (BitVec.ofNat 8 c) := by
    simp [List.getLast?_append, List.getLast?_replicate, Nat.ne_of_gt h1]
  have hcount : (BitVec.ofNat 8 c).toNat = c := Nat.mod_eq_of_lt (by omega)
  have hne : BitVec.ofNat 8 c ≠ 0#8 := fun h => by
    have h0 : c = 0 := hcount.symm.trans (congrArg BitVec.toNat h)
    omega
  simp [unpad, hlast, hcount, hne, h16]

/-- What `unpad` accepts ends in `c` bytes of value `c`, for a `c` in 1..16 (R132). -/
theorem eq_append_replicate_of_unpad {s u : List Byte} (h : unpad s = some u) :
    ∃ c : Nat, 1 ≤ c ∧ c ≤ 16 ∧ s = u ++ List.replicate c (BitVec.ofNat 8 c) := by
  unfold unpad at h
  split at h
  · cases h
  next c _ =>
    split_ifs at h with hcheck hall
    obtain rfl := Option.some.inj h
    simp only [not_or, Nat.not_lt] at hcheck
    obtain ⟨hne, h16, hlen⟩ := hcheck
    have h1 : c.toNat ≠ 0 := fun e => hne (BitVec.eq_of_toNat_eq e)
    have htail : s.drop (s.length - c.toNat) = List.replicate c.toNat (BitVec.ofNat 8 c.toNat) := by
      rw [BitVec.ofNat_toNat, BitVec.setWidth_eq, List.eq_replicate_iff]
      exact ⟨by rw [List.length_drop]; omega, fun b hb => by simpa using List.all_eq_true.1 hall b hb⟩
    exact ⟨c.toNat, by omega, h16, by rw [← htail, List.take_append_drop]⟩

/-- `unpad(pad(x)) = x` (R133). -/
theorem unpad_pad (x : List Byte) : unpad (pad x) = some x :=
  unpad_append_replicate x (by simp only [padLen]; omega) (Nat.sub_le 16 _)

/-! ## Blocks of a sequence (R53, R134) -/

theorem blockOfBytes_getElem (s : List Byte) (j : Fin 16) : (blockOfBytes s)[j] = s.getD j.val 0 := by
  simp [blockOfBytes]

/-- Block `q` of a sequence is the one its bytes give. -/
theorem blockOfBytes_drop_eq {s : List Byte} {q : Nat} {x : Block}
    (h : ∀ j : Fin 16, s[16 * q + j.val]? = some x[j]) :
    blockOfBytes (s.drop (16 * q)) = x :=
  Block.ext fun j => by rw [blockOfBytes_getElem, List.getD_eq_getElem?_getD, List.getElem?_drop, h j]; rfl

/-- Two blocks of a sequence whose bytes agree are equal. -/
theorem blockOfBytes_drop_congr {s : List Byte} {q q' : Nat} (h : ∀ j < 16, s[16 * q + j]? = s[16 * q' + j]?) :
    blockOfBytes (s.drop (16 * q)) = blockOfBytes (s.drop (16 * q')) :=
  Block.ext fun j => by
    simp only [blockOfBytes_getElem, List.getD_eq_getElem?_getD, List.getElem?_drop, h j.val j.isLt]

theorem splitBlocks_getElem (n : Nat) (s : List Byte) {q : Nat} (h : q < (splitBlocks n s).length) :
    (splitBlocks n s)[q] = blockOfBytes (s.drop (16 * q)) := by
  induction n generalizing s q with
  | zero => exact absurd h (Nat.not_lt_zero q)
  | succ n ih =>
    cases q with
    | zero => rfl
    | succ q =>
      have hq : 16 + 16 * q = 16 * (q + 1) := by omega
      simp only [splitBlocks, List.getElem_cons_succ, ih, List.drop_drop, hq]

theorem joinBlocks_cons (b : Block) (bs : List Block) : joinBlocks (b :: bs) = b.toList ++ joinBlocks bs := rfl

theorem joinBlocks_getElem? (bs : List Block) {q : Nat} (h : q < bs.length) (j : Fin 16) :
    (joinBlocks bs)[16 * q + j.val]? = some bs[q][j] := by
  induction bs generalizing q with
  | nil => exact absurd h (Nat.not_lt_zero q)
  | cons b bs ih =>
    rw [joinBlocks_cons]
    cases q with
    | zero =>
      rw [Nat.mul_zero, Nat.zero_add, List.getElem?_append_left (by simp)]
      simp
    | succ q =>
      have hq : 16 * (q + 1) + j.val - 16 = 16 * q + j.val := by omega
      rw [List.getElem?_append_right (by simp; omega), Vector.length_toList, hq]
      exact ih (Nat.lt_of_succ_lt_succ h)

theorem blockOfBytes_toList_append (b : Block) (s : List Byte) : blockOfBytes (b.toList ++ s) = b :=
  Block.ext fun j => by
    rw [blockOfBytes_getElem, List.getD_eq_getElem?_getD, List.getElem?_append_left (by simp)]
    simp

/-- Splitting undoes joining. -/
theorem splitBlocks_joinBlocks (bs : List Block) : splitBlocks bs.length (joinBlocks bs) = bs := by
  induction bs with
  | nil => rfl
  | cons b bs ih =>
    rw [joinBlocks_cons, List.length_cons, splitBlocks, blockOfBytes_toList_append,
      List.drop_left' b.length_toList, ih]

/-- Joining undoes splitting, on whole blocks. -/
theorem joinBlocks_splitBlocks {n : Nat} {s : List Byte} (h : s.length = 16 * n) :
    joinBlocks (splitBlocks n s) = s := by
  induction n generalizing s with
  | zero => exact (List.length_eq_zero_iff.1 h).symm
  | succ n ih =>
    have hhead : (blockOfBytes s).toList = s.take 16 :=
      List.ext_getElem (by simp; omega) fun i hi hi' => by
        have his : i < s.length := by rw [List.length_take] at hi'; omega
        simp [blockOfBytes, his]
    rw [splitBlocks, joinBlocks_cons, ih (by rw [List.length_drop]; omega), hhead, List.take_append_drop]

/-! ## The ECB functions (R134, R145, R147) -/

/-- Block `q` of a ciphertext is the encryption of block `q` of the padded plaintext (R145). -/
theorem ecbEncrypt_getElem? (g : PermGen) (m : List Byte) (K : Block) {q : Nat} (h : q < m.length / 16 + 1)
    (j : Fin 16) :
    (ecbEncrypt g m K)[16 * q + j.val]? = some (encryptBlock g (blockOfBytes ((pad m).drop (16 * q))) K)[j] := by
  have hq : q < ((splitBlocks ((pad m).length / 16) (pad m)).map fun b => encryptBlock g b K).length := by
    rw [List.length_map, length_splitBlocks, length_pad]; omega
  rw [ecbEncrypt, joinBlocks_getElem? _ hq, List.getElem_map, splitBlocks_getElem]

/-- Decryption of a ciphertext gives the padded plaintext back (R147). -/
theorem ecbDecryptRaw_ecbEncrypt {g : PermGen} (hg : PermGen.Conforming g) (m : List Byte) (K : Block) :
    ecbDecryptRaw g (ecbEncrypt g m K) K = pad m := by
  have hp : (pad m).length = 16 * (m.length / 16 + 1) := length_pad m
  have hn : 16 * (m.length / 16 + 1) / 16 = m.length / 16 + 1 := by omega
  have hsplit := splitBlocks_joinBlocks
    ((splitBlocks (m.length / 16 + 1) (pad m)).map fun b => encryptBlock g b K)
  rw [List.length_map, length_splitBlocks] at hsplit
  have hinv : ((fun b => decryptBlock g b K) ∘ fun b => encryptBlock g b K) = id :=
    funext fun b => by rw [Function.comp_apply, decryptBlock_encryptBlock hg, id]
  rw [ecbDecryptRaw, length_ecbEncrypt, ecbEncrypt, hp, hn, hsplit, List.map_map, hinv, List.map_id,
    joinBlocks_splitBlocks hp]

end Sys2Proof.Machine
end

section
/-! What the message commands share: the range checks before anything else, and bytes stored at `DST` (20_memory.md R53,
42_ecb.md R135, R136). -/

namespace Sys2Proof.Machine

/-! ## The checks (R136) -/

theorem withSource_of_rangeCheck {s : State} {n d : Nat} {body : List Byte → Result} {e : ErrCode}
    (h : rangeCheck s n d = some e) : withSource s n d body = .next (s.raise e) := by
  simp only [withSource, h]

/-- A command that raises the error of its range check checks its ranges as R136 asks. -/
theorem checksRanges_of_raise {s : State} {i : Instr} {n d : Nat}
    (h : ∀ e, rangeCheck s n d = some e → exec i s = .next (s.raise e)) : s.ChecksRanges i n d := by
  refine ⟨fun hbad => h .range ((rangeCheck_eq_range_iff s n d).2 hbad), fun hok ⟨hn, hd, hne, h₁, h₂⟩ =>
    h .overlap ((rangeCheck_eq_overlap_iff s n d).2 ?_)⟩
  simp only [State.RangeBad, not_or, Nat.not_lt] at hok
  exact ⟨hok.1, hok.2, hn, hd, fun e => hne (BitVec.eq_of_toNat_eq e), h₁, h₂⟩

theorem checksRanges_pad (s : State) : s.ChecksRanges .pad s.len.toNat (paddedLen s.len.toNat) :=
  checksRanges_of_raise fun _ => withSource_of_rangeCheck

theorem checksRanges_unpad (s : State) : s.ChecksRanges .unpad s.len.toNat s.len.toNat :=
  checksRanges_of_raise fun _ => withSource_of_rangeCheck

theorem checksRanges_enc {s : State} (hk : s.keyLen = 16) : s.ChecksRanges .enc s.len.toNat (paddedLen s.len.toNat) :=
  checksRanges_of_raise fun _ h => (withKeyCheck_of_eq hk).trans (withSource_of_rangeCheck h)

/-- `DEC` checks the ciphertext's length before its ranges (R143). -/
theorem exec_dec_of_badLength {s : State} (hk : s.keyLen = 16) (hl : s.len.toNat = 0 ∨ s.len.toNat % 16 ≠ 0) :
    exec .dec s = .next (s.raise .ctLength) :=
  (withKeyCheck_of_eq hk).trans (if_pos hl)

theorem checksRanges_dec {s : State} (hk : s.keyLen = 16) (h0 : s.len.toNat ≠ 0) (h16 : s.len.toNat % 16 = 0) :
    s.ChecksRanges .dec s.len.toNat s.len.toNat := by
  have hl : ¬(s.len.toNat = 0 ∨ s.len.toNat % 16 ≠ 0) := by omega
  exact checksRanges_of_raise fun _ h =>
    (withKeyCheck_of_eq hk).trans ((if_neg hl).trans (withSource_of_rangeCheck h))

/-! ## Bytes in `MEM` (R14, R53) -/

/-- The byte at index `i` of a sequence that stands at `a`. -/
theorem State.Holds.get {s : State} {a i : Nat} {bs : List Byte} {b : Byte} (h : s.Holds a bs) (hb : bs[i]? = some b) :
    Memory.get s.mem (a + i) = some b := by
  obtain ⟨hi, rfl⟩ := List.getElem?_eq_some_iff.1 hb
  exact h i hi

/-- Where a well-padded sequence stands, its message does. -/
theorem State.Holds.message {s : State} {a : Nat} {p u : List Byte} (h : s.Holds a p) (hu : unpad p = some u) :
    s.Holds a u := by
  obtain ⟨c, -, -, rfl⟩ := eq_append_replicate_of_unpad hu
  exact fun j hj => h.get (by rw [List.getElem?_append_left hj, List.getElem?_eq_getElem hj])

/-- Where a well-padded sequence stands, every byte after its message is the count of them (R144). -/
theorem State.Holds.padding {s : State} {a : Nat} {p u : List Byte} (h : s.Holds a p) (hu : unpad p = some u) (j : Nat)
    (hj : u.length ≤ j) (hj' : j < p.length) :
    Memory.get s.mem (a + j) = some (BitVec.ofNat 8 (p.length - u.length)) := by
  obtain ⟨c, -, -, rfl⟩ := eq_append_replicate_of_unpad hu
  have hlen : (u ++ List.replicate c (BitVec.ofNat 8 c)).length = u.length + c := by simp
  rw [hlen] at hj' ⊢
  rw [Nat.add_sub_cancel_left]
  exact h.get (by rw [List.getElem?_append_right hj, List.getElem?_replicate, if_pos (by omega)])

/-- A command that writes `bs` at `a` leaves it standing there. -/
theorem State.holds_of_mem_eq {m : Memory} {t : State} {a : Nat} {bs : List Byte}
    (h : t.mem = Memory.writeBytes m a bs) : t.Holds a bs :=
  fun _ hj => h ▸ Memory.get_writeBytes_inside m a bs hj

/-- A command that writes `bs` at `a` changes no byte outside. -/
theorem State.sameMemOutside_of_mem_eq {s t : State} {a n : Nat} {bs : List Byte}
    (h : t.mem = Memory.writeBytes s.mem a bs) (hn : bs.length ≤ n) : s.SameMemOutside t a n :=
  fun _ hk => h ▸ Memory.get_writeBytes_outside s.mem a bs (by omega)

/-- `OUT_LEN` has room for every length up to `MEM_BYTES` (R31). -/
theorem toNat_outLen {n : Nat} (h : n ≤ 2 ^ 16) : (BitVec.ofNat 17 n).toNat = n :=
  Nat.mod_eq_of_lt (by omega)

theorem toNat_outLen_padded (n : BitVec 16) :
    (BitVec.ofNat 17 (paddedLen n.toNat)).toNat = 16 * (n.toNat / 16 + 1) := by
  have := n.isLt
  simp only [paddedLen]
  exact toNat_outLen (by omega)

end Sys2Proof.Machine
end

section
/-! The statements of 42_ecb.md about the padding and message commands. -/

namespace Sys2Proof.Machine

/-- Settles O41: `pad(x)` is `x` and 1 to 16 bytes of their count, which is what `unpad` removes. -/
theorem paddingLaws : Obligations.PaddingLaws := by
  refine ⟨fun x => ?_, unpad_append_replicate [] (c := 1) (by decide) (by decide),
    unpad_append_replicate [] (c := 2) (by decide) (by decide)⟩
  have hlen : (pad x).length = 16 * (x.length / 16 + 1) := length_pad x
  exact ⟨by omega, by omega, unpad_pad x⟩

/-- Settles O42: the two halves of what `unpad` accepts. -/
theorem unpadAcceptsExactlyPaddedSequences : Obligations.UnpadAcceptsExactlyPaddedSequences := by
  refine fun s u => ⟨eq_append_replicate_of_unpad, ?_⟩
  rintro ⟨c, h1, h16, rfl⟩
  exact unpad_append_replicate u h1 h16

/-- Settles O43: the checks are the front of `PAD`, and its one write is the padded message. -/
theorem padWritesThePaddedMessage : Obligations.PadWritesThePaddedMessage := by
  refine fun s => ⟨checksRanges_pad s, fun m hm hr hs => ?_⟩
  have hlen : (pad m).length ≤ 16 * (s.len.toNat / 16 + 1) := by rw [length_pad, hm]
  exact ⟨_, exec_pad_of_holds hr hm hs, rfl, toNat_outLen_padded s.len,
    State.holds_of_mem_eq rfl, State.sameMemOutside_of_mem_eq rfl hlen⟩

/-- Settles O44: `UNPAD` writes what `unpad` answers, and nothing where it answers `Fail`. -/
theorem unpadWritesTheMessageOrFails : Obligations.UnpadWritesTheMessageOrFails := by
  refine fun s => ⟨checksRanges_unpad s, fun m hm hr hs => ?_⟩
  have hexec := exec_unpad_of_holds hr hm hs
  refine ⟨fun u hu => ?_, fun hbad => ?_⟩
  · rw [hu] at hexec
    have hlen : u.length ≤ 2 ^ 16 := by have := (unpad_length hu).1; have := s.len.isLt; omega
    exact ⟨_, hexec, rfl, toNat_outLen hlen, State.holds_of_mem_eq rfl,
      State.sameMemOutside_of_mem_eq rfl (Nat.le_refl _)⟩
  · rw [hbad] at hexec
    exact hexec

/-- Settles O45: `ENC` writes the ciphertext, whatever its bytes and the scheduler's registers are. -/
theorem encWritesTheCiphertext : Obligations.EncWritesTheCiphertext := by
  refine fun s => ⟨fun hk => keyLengthIsCheckedFirst s _ hk (.inr (.inr (.inr (.inl rfl)))),
    fun hk => ⟨checksRanges_enc hk, fun m hm hr hs => ?_⟩⟩
  have hexec := exec_enc_of_holds hk hr hm hs
  have hlen : (ecbEncrypt s.cfg.permGen m s.key).length = 16 * (s.len.toNat / 16 + 1) := by
    rw [length_ecbEncrypt, hm]
  generalize ecbEncrypt s.cfg.permGen m s.key = ct at hexec hlen ⊢
  generalize (s.sched.encryptBytes s.cfg.permGen s.key (pad m)).2 = sc at hexec
  exact ⟨_, hexec, rfl, toNat_outLen_padded s.len, hlen,
    State.holds_of_mem_eq rfl, State.sameMemOutside_of_mem_eq rfl (Nat.le_of_eq hlen)⟩

/-- Settles O46: what `unpad` accepts is the message and then its padding, so both stand at `DST`. -/
theorem decWritesTheMessageOrFails : Obligations.DecWritesTheMessageOrFails := by
  refine fun s => ⟨fun hk => keyLengthIsCheckedFirst s _ hk (.inr (.inr (.inr (.inr rfl)))),
    exec_dec_of_badLength, fun hk h0 h16 => ⟨checksRanges_dec hk h0 h16, fun c hc hr hs => ?_⟩⟩
  have hexec := exec_dec_of_holds hk h0 h16 hr hc hs
  have hlen : (ecbDecryptRaw s.cfg.permGen c s.key).length = s.len.toNat := by rw [length_ecbDecryptRaw]; omega
  generalize ecbDecryptRaw s.cfg.permGen c s.key = p at hexec hlen
  generalize (s.sched.decryptBytes s.cfg.permGen s.key c).2 = sc at hexec
  refine ⟨hlen, fun u hu => ?_, fun hbad => ?_⟩
  · simp only [hu] at hexec
    have hout : u.length ≤ 2 ^ 16 := by have := (unpad_length hu).1; have := s.len.isLt; omega
    exact ⟨_, hexec, rfl, toNat_outLen hout, State.holds_of_mem_eq rfl,
      State.Holds.message (State.holds_of_mem_eq rfl) hu, hlen ▸ State.Holds.padding (State.holds_of_mem_eq rfl) hu,
      State.sameMemOutside_of_mem_eq rfl (Nat.le_of_eq hlen)⟩
  · simp only [hbad] at hexec
    exact ⟨_, hexec, rfl, State.holds_of_mem_eq rfl, State.sameMemOutside_of_mem_eq rfl (Nat.le_of_eq hlen)⟩

/-- Settles O47: each byte of ciphertext block `q` is one of the encryption of padded block `q`. -/
theorem equalPlaintextBlocksGiveEqualCiphertextBlocks : Obligations.EqualPlaintextBlocksGiveEqualCiphertextBlocks := by
  intro s m hk hm hr hs
  obtain ⟨t, hexec, -, -, -, hct, -⟩ := ((encWritesTheCiphertext s).2 hk).2 m hm hr hs
  have hblock : ∀ q, q < s.len.toNat / 16 + 1 → ∀ j : Fin 16, Memory.get t.mem (s.dst.toNat + 16 * q + j.val) =
      some (encryptBlock s.cfg.permGen (blockOfBytes ((pad m).drop (16 * q))) s.key)[j] := fun q hq j => by
    rw [Nat.add_assoc]
    exact hct.get (ecbEncrypt_getElem? _ m _ (by rwa [hm]) j)
  refine ⟨t, hexec, fun q hq x hx j => ?_, fun q q' hq hq' heq j hj => ?_⟩
  · rw [hblock q hq j, blockOfBytes_drop_eq hx]
  · refine (hblock q hq ⟨j, hj⟩).trans (Eq.trans ?_ (hblock q' hq' ⟨j, hj⟩).symm)
    rw [blockOfBytes_drop_congr heq]

/-- Settles O48: `DEC` decrypts the ciphertext `ENC` left to the padded message, which `unpad` accepts. -/
theorem messageRoundTrip : Obligations.MessageRoundTrip := by
  intro s m d hk hg hm hr hs hfit
  obtain ⟨t, hexec, ht, hout, hlen, hct, -⟩ := ((encWritesTheCiphertext s).2 hk).2 m hm hr hs
  refine ⟨t, hexec, ?_⟩
  intro u hru
  have hul : u.len.toNat = 16 * (s.len.toNat / 16 + 1) := by
    simp only [paddedLen] at hfit
    show (t.outLen.setWidth 16).toNat = _
    rw [BitVec.toNat_setWidth, hout, Nat.mod_eq_of_lt hfit]
  have hkey : t.key = s.key := by rw [ht]
  have hcfg : t.cfg = s.cfg := by rw [ht]
  have hkl : u.keyLen = 16 := by show t.keyLen = 16; rw [ht]; exact hk
  have hraw : ecbDecryptRaw u.cfg.permGen (ecbEncrypt s.cfg.permGen m s.key) u.key = pad m := by
    show ecbDecryptRaw t.cfg.permGen _ t.key = _
    rw [hkey, hcfg, ecbDecryptRaw_ecbEncrypt hg]
  have hdec := ((decWritesTheMessageOrFails u).2.2 hkl (by omega) (by omega)).2
  obtain ⟨-, hok, -⟩ := hdec _ (hlen.trans hul.symm) hru hct
  obtain ⟨v, hv, hframe, hvout, -, hvm, -⟩ := hok m (by rw [hraw]; exact unpad_pad m)
  exact ⟨v, hv, by rw [hframe]; rfl, hvout.trans hm, hvm⟩

end Sys2Proof.Machine
end

section
/-! How a command fails: before any write, or as `DEC` with a bad padding (60_exceptions.md R150, R157, R158). -/

namespace Sys2Proof.Machine

/-- Every error the core raises has a code of the table (R150). -/
theorem legalErr_code (e : ErrCode) : legalErr e.code = true := by
  cases e with
  | keyLength | ctLength | padding | illegalCmd | range | overlap => rfl

/-- A message command that ends in a next state has raised the error of its range check, or its body has run on the
bytes of a legal, written source range. -/
theorem next_cases_of_withSource {s t : State} {n d : Nat} {body : List Byte → Result}
    (h : withSource s n d body = .next t) :
    (∃ e, t = s.raise e) ∨
      ∃ m, s.RangesLegal n d ∧ m.length = n ∧ s.Holds s.src.toNat m ∧ body m = .next t := by
  rcases withSource_cases s n d body with ⟨e, -, he⟩ | ⟨-, -, he⟩ | ⟨m, hr, hm, hs, he⟩
  · exact .inl ⟨e, Host.Outcome.next.inj (h.symm.trans he)⟩
  · exact absurd (h.symm.trans he) nofun
  · exact .inr ⟨m, hr, hm, hs, he.symm.trans h⟩

/-- `DEC` with every check before the padding passed, and the ciphertext `c` in its source range (R143). -/
structure State.DecryptsSource (s : State) (c : List Byte) : Prop where
  keyLen : s.keyLen = 16
  len_ne_zero : s.len.toNat ≠ 0
  len_mod : s.len.toNat % 16 = 0
  ranges : s.RangesLegal s.len.toNat s.len.toNat
  length : c.length = s.len.toNat
  source : s.Holds s.src.toNat c

/-- A `DEC` that completes has raised an error before any write, or has decrypted its source (R143). -/
theorem exec_dec_cases {s t : State} (h : exec .dec s = .next t) : (∃ e, t = s.raise e) ∨ ∃ c, s.DecryptsSource c := by
  by_cases hk : s.keyLen = 16
  · by_cases hl : s.len.toNat = 0 ∨ s.len.toNat % 16 ≠ 0
    · exact .inl ⟨_, Host.Outcome.next.inj (h.symm.trans (exec_dec_of_badLength hk hl))⟩
    · have hsource := ((withKeyCheck_of_eq hk).trans (if_neg hl)).symm.trans h
      refine (next_cases_of_withSource hsource).imp_right ?_
      rintro ⟨c, hr, hc, hs, -⟩
      obtain ⟨h0, h16⟩ := not_or.1 hl
      exact ⟨c, hk, h0, not_not.1 h16, hr, hc, hs⟩
  · exact .inl ⟨_, Host.Outcome.next.inj (h.symm.trans (withKeyCheck_of_ne hk))⟩

/-- A command that fails from `ERR` 0 has raised its error before any write, or it is `DEC` and has decrypted its source:
a command that succeeds leaves `ERR` alone. -/
theorem exec_failed_cases {i : Instr} {s t : State} (h : exec i s = .next t) (h0 : s.err = 0) (he : t.err ≠ 0) :
    (∃ e, t = s.raise e) ∨ (i = .dec ∧ ∃ c, s.DecryptsSource c) := by
  rcases exec_cases h with hraise | ⟨x, sc, -, -, rfl⟩ | ⟨n, d, bs, sc, -, -, -, -, ⟨k, -, rfl⟩ | ⟨rfl, -⟩⟩
  · exact .inl hraise
  · exact absurd h0 he
  · exact absurd h0 he
  · exact (exec_dec_cases h).imp_right fun hdec => ⟨rfl, hdec⟩

end Sys2Proof.Machine
end

section
/-! The statements of 60_exceptions.md about acceptance and errors. -/

namespace Sys2Proof.Machine

/-- Settles O52: an error before any write is `raise`, and past its checks `DEC` fails by its padding only, with the
decrypted bytes written. -/
theorem errorsArePrecise : Obligations.ErrorsArePrecise := by
  intro s t i h h0 he
  rcases exec_failed_cases h h0 he with ⟨e, rfl⟩ | ⟨rfl, c, hc⟩
  · exact ⟨legalErr_code e, .inl rfl⟩
  · obtain ⟨-, hgood, hbad⟩ := ((decWritesTheMessageOrFails s).2.2 hc.keyLen hc.len_ne_zero hc.len_mod).2 c
      hc.length hc.ranges hc.source
    cases hu : unpad (ecbDecryptRaw s.cfg.permGen c s.key) with
    | some u =>
      obtain ⟨t', ht', hframe, -⟩ := hgood u hu
      obtain rfl := Host.Outcome.next.inj (h.symm.trans ht')
      exact absurd ((congrArg State.err hframe).trans h0) he
    | none =>
      obtain ⟨t', ht', hframe, hdst, hout⟩ := hbad hu
      obtain rfl := Host.Outcome.next.inj (h.symm.trans ht')
      have herr : t.err = 0x03 := congrArg State.err hframe
      exact ⟨herr ▸ legalErr_code .padding, .inr ⟨rfl, herr, hout, ⟨c, hc.length, hc.source, hdst⟩, hframe⟩⟩

/-- Settles O4: offset 0x04 is `CMD`, whose write is acceptance while idle and only sets `CMDOVR` while busy. -/
theorem cmdWriteAcceptsOrSetsCmdovr : Obligations.CmdWriteAcceptsOrSetsCmdovr := by
  refine fun s w => ⟨fun hb => (hostAccess_regWrite s .cmd w).trans ?_,
    fun hb => (hostAccess_regWrite s .cmd w).trans ?_, hostAccess_regRead_of_ne_blkWord s (r := .cmd) nofun⟩
  · rw [writeReg_cmd_of_idle hb]
    rfl
  · rw [writeReg_cmd_of_busy hb]
    rfl

end Sys2Proof.Machine
end

section
/-! A step that takes a reset, and the `MEM` it leaves (70_reset_and_hazards.md R170, R171). -/

namespace Sys2Proof.Machine

/-- A step that takes a reset. -/
theorem step_reset {s : State} {rest : List Event} (h : s.inbox = .reset :: rest) :
    step s = .next (applyReset { s with inbox := rest }) := by
  simp only [step, runEvent, State.popInbox, h, List.tail_cons]

/-- The reset values are those of `State.resetWith`, whatever `MEM` holds and whatever events are to come. -/
theorem hasResetValues_resetWith (cfg : Config) (mem : Memory) (inbox : List Event) (draws : Nat) :
    State.HasResetValues { State.resetWith cfg with mem := mem, inbox := inbox, draws := draws } where
  status := rfl
  err := rfl
  keyLen := rfl
  src := rfl
  dst := rfl
  len := rfl
  outLen := rfl
  key i := Vector.getElem_replicate i.isLt
  blk i := Vector.getElem_replicate i.isLt
  id := rfl

theorem applyReset_hasResetValues (s : State) : (applyReset s).HasResetValues := hasResetValues_resetWith ..

/-- A reset while no message command runs leaves `MEM` alone. -/
theorem memAfterReset_of_no_ranges {s : State} (h : runningRanges s = none) : memAfterReset s = s.mem := by
  simp only [memAfterReset, h]

/-- What a reset can do to the `MEM` of a running message command: a free choice between the old and the new bytes of the
destination range, or no values there where the command would not have completed (assumption 10). -/
theorem memAfterReset_cases {s : State} {src dst : MemRange} (h : runningRanges s = some (src, dst)) :
    (∃ u, completeCommand s = .next u ∧
      memAfterReset s = Memory.mixBytes s.mem u.mem (Config.freePick s.draws) dst.base dst.size) ∨
    ((∀ u, completeCommand s ≠ .next u) ∧ memAfterReset s = Memory.forgetBytes s.mem dst.base dst.size) := by
  simp only [memAfterReset, h]
  cases completeCommand s with
  | next u => exact .inl ⟨u, rfl, rfl⟩
  | fault e => exact .inr ⟨nofun, rfl⟩
  | refused e => exact .inr ⟨nofun, rfl⟩

/-- A reset leaves every byte outside the destination range of the running command alone. -/
theorem get_memAfterReset_outside_dst {s : State} {src dst : MemRange} {a : Nat} (hm : Memory.wf s.mem)
    (h : runningRanges s = some (src, dst)) (ha : dst.has a = false) :
    Memory.get (memAfterReset s) a = Memory.get s.mem a := by
  have hout : a < dst.base ∨ dst.base + dst.size ≤ a := (MemRange.has_eq_false_iff ..).1 ha
  rcases memAfterReset_cases h with ⟨u, -, hmix⟩ | ⟨-, hforget⟩
  · rw [hmix]
    exact (Memory.get_mixBytes ..).resolve_right fun ⟨hlo, hhi, _⟩ => by omega
  · rw [hforget, Memory.get_forgetBytes hm, if_neg (by omega)]

/-- After the reset of a command that would have completed, every byte holds its old value or the command's. -/
theorem get_memAfterReset_of_next {s u : State} {src dst : MemRange} (h : runningRanges s = some (src, dst))
    (hu : completeCommand s = .next u) (a : Nat) :
    Memory.get (memAfterReset s) a = Memory.get s.mem a ∨ Memory.get (memAfterReset s) a = Memory.get u.mem a := by
  rcases memAfterReset_cases h with ⟨u', hu', hmix⟩ | ⟨hnot, -⟩
  · obtain rfl := Host.Outcome.next.inj (hu.symm.trans hu')
    rw [hmix]
    exact (Memory.get_mixBytes ..).imp_right fun ⟨_, _, hnew⟩ => hnew
  · exact absurd hu (hnot u)

end Sys2Proof.Machine
end

section
/-! The statements of 70_reset_and_hazards.md. -/

namespace Sys2Proof.Machine

/-- Settles O2: the reset gives the registers their values, and `MEM` is the free mix of old and new bytes, or has lost
the destination bytes. -/
theorem resetAbandonsRunningCommand : Obligations.ResetAbandonsRunningCommand := by
  intro s rest src dst hi hr hm
  have hreset := applyReset_hasResetValues { s with inbox := rest }
  have hranges : runningRanges { s with inbox := rest } = some (src, dst) := hr
  exact ⟨_, step_reset hi, congrArg Status.busy hreset.status, hreset.err, hreset.blk,
    fun a ha => get_memAfterReset_outside_dst hm hranges ha, fun u hu a => get_memAfterReset_of_next hranges hu a⟩

/-- Settles O1: power-up and a reset give the registers the same values; offset 0x00 is `ID`. -/
theorem resetGivesStatedValues : Obligations.ResetGivesStatedValues :=
  ⟨fun cfg => hasResetValues_resetWith cfg [] [] 0,
    fun _ _ hi => ⟨_, step_reset hi, applyReset_hasResetValues _, rfl, rfl, fun hr => memAfterReset_of_no_ranges hr⟩,
    fun s => hostAccess_regRead_of_ne_blkWord s (r := .id) nofun⟩

end Sys2Proof.Machine
end

section
/-! The decoder on the words of the opcode map's patterns, and the lines of the assembler (30_encoding.md R77 to
R81). -/

namespace Sys2Proof

/-! ## The fields of the patterns (R70, R77) -/

/-- Each field of a word put together from five groups of bits is its group. -/
theorem fields_append (h k : BitVec 8) (l r : BitVec 4) (op : BitVec 8) :
    fieldReservedHigh (h ++ k ++ l ++ r ++ op) = h ∧ fieldKb (h ++ k ++ l ++ r ++ op) = k ∧
      fieldReservedLow (h ++ k ++ l ++ r ++ op) = l ∧ fieldRidx (h ++ k ++ l ++ r ++ op) = r ∧
      fieldOp (h ++ k ++ l ++ r ++ op) = op := by
  simp only [fieldReservedHigh, fieldKb, fieldReservedLow, fieldRidx, fieldOp]
  refine ⟨?_, ?_, ?_, ?_, ?_⟩ <;> ext n hn <;> simp <;> grind

/-- A layer command's word has its `OP` and no reserved bit, its operand is in `KB`, and `RIDX` is 0. -/
theorem layerWord_has_fields (op : BitVec 8) (kb : Byte) :
    HasOp (layerWord op kb) op ∧ fieldKb (layerWord op kb) = kb ∧ fieldRidx (layerWord op kb) = 0 := by
  have hw : layerWord op kb = 0#8 ++ kb ++ 0#4 ++ 0#4 ++ op := by
    ext n hn
    simp [layerWord]
    grind
  obtain ⟨hh, hk, hl, hr, ho⟩ := fields_append 0 kb 0 0 op
  rw [hw]
  exact ⟨⟨ho, hh, hl⟩, hk, hr⟩

/-- A round command's word has its `OP` and no reserved bit, `KB` is 0, and its operand is in `RIDX`. -/
theorem roundWord_has_fields (op : BitVec 8) (r : Fin 16) :
    HasOp (roundWord op r) op ∧ fieldKb (roundWord op r) = 0 ∧ (fieldRidx (roundWord op r)).toFin = r := by
  obtain ⟨hh, hk, hl, hr, ho⟩ := fields_append 0 0 0 (BitVec.ofFin (w := 4) r) op
  exact ⟨⟨ho, hh, hl⟩, hk, congrArg BitVec.toFin hr⟩

/-! ## The decoder (R79) -/

theorem decodeLayer_layerWord (op : BitVec 8) (kb : Byte) (mk : Byte → Instr) :
    decodeLayer (layerWord op kb) mk = .ok (mk kb) := by
  obtain ⟨-, hk, hr⟩ := layerWord_has_fields op kb
  rw [decodeLayer, if_pos hr, hk]

theorem decodeRound_roundWord (op : BitVec 8) (r : Fin 16) (mk : Fin 16 → Instr) :
    decodeRound (roundWord op r) mk = .ok (mk r) := by
  obtain ⟨-, hk, hr⟩ := roundWord_has_fields op r
  rw [decodeRound, if_pos hk, hr]

/-- Without reserved bits the decoder looks at `OP`, and the arm of the command's `OP` reads its operand back. -/
theorem decode_encode (i : Instr) : decode (encode i) = .ok i := by
  have layer op kb : HasOp (layerWord op kb) op := (layerWord_has_fields op kb).1
  have round op r : HasOp (roundWord op r) op := (roundWord_has_fields op r).1
  cases i with
  | subf kb | subi kb | perf kb | peri kb | mix kb =>
    simp [encode, decode, (layer _ kb).op_eq, (layer _ kb).high, (layer _ kb).low, decodeLayer_layerWord]
  | rndf r | rndi r =>
    simp [encode, decode, (round _ r).op_eq, (round _ r).high, (round _ r).low, decodeRound_roundWord]
  | encb | decb | pad | unpad | enc | dec => rfl

/-! ## Assembly lines (R80, R81) -/

/-- A line that is not well formed has no command, and every other line has one. -/
theorem assemble_eq_none_iff (l : AsmLine) : l.assemble = none ↔ l.wellFormed = false := by
  rw [AsmLine.assemble]
  split_ifs with h
  · exact iff_of_false (by cases l.name <;> nofun) (by simp [h])
  · exact iff_of_true rfl (by simpa using h)

/-- The well-formed lines: a name that takes `KB` with a number below 256, one that takes `RIDX` with a number below 16,
or one that takes no operand with none. -/
theorem wellFormed_iff (l : AsmLine) : l.wellFormed = true ↔
    (l.name ∈ [Mnemonic.SUBF, .SUBI, .PERF, .PERI, .MIX, .UNMIX] ∧ ∃ k < 256, l.operand = some k) ∨
    (l.name ∈ [Mnemonic.RNDF, .RNDI] ∧ ∃ r < 16, l.operand = some r) ∨
    (l.name ∈ [Mnemonic.ENCB, .DECB, .PAD, .UNPAD, .ENC, .DEC] ∧ l.operand = none) := by
  obtain ⟨name, operand⟩ := l
  cases operand <;> cases name <;> simp [AsmLine.wellFormed]

/-- The value of two groups of bits put together. -/
theorem toNat_append_eq_add {m n : Nat} (x : BitVec m) (y : BitVec n) : (x ++ y).toNat = x.toNat * 2 ^ n + y.toNat := by
  rw [BitVec.toNat_append, Nat.shiftLeft_eq, Nat.mul_comm, Nat.two_pow_add_eq_or_of_lt y.isLt]

/-- The value of a layer command's word (R77). -/
theorem toNat_layerWord (op : BitVec 8) (kb : Byte) : (layerWord op kb).toNat = kb.toNat * 2 ^ 16 + op.toNat := by
  simp only [layerWord, toNat_append_eq_add]
  simp
  omega

end Sys2Proof
end

section
/-! The statements of 30_encoding.md about the decoder and the assembler, and of 60_exceptions.md about running a
decoded command. -/

namespace Sys2Proof.Machine

/-- Settles O7: the word of each pattern has the fields the arm of its `OP` asks for. -/
theorem decodeOfEncodeIsTheCommand : Obligations.DecodeOfEncodeIsTheCommand := decode_encode

/-- Settles O8: what the decoder accepts is the word of what it gives. -/
theorem decodedWordIsTheEncoding : Obligations.DecodedWordIsTheEncoding := fun _ _ => encode_of_decode

/-- Settles O10: each word is the word of the command it stands for, and no row has `OP` 0. -/
theorem wordsFromTheSpecDecode : Obligations.WordsFromTheSpecDecode :=
  ⟨decode_encode (.subf 0x3a), decode_encode (.mix 0xff), decode_encode (.rndf 5), decode_encode (.rndi 15),
    decode_encode .encb, decode_encode .dec, rfl⟩

/-- Settles O11: the well-formed lines are the ones listed, every one has the command of its name, and the value of
`UNMIX`'s word is that of the layer pattern. -/
theorem assemblerFollowsItsSyntax : Obligations.AssemblerFollowsItsSyntax := by
  refine ⟨fun l => ?_, fun kb p hp => ?_, fun r p hp => ?_, by decide, by decide, by decide, by decide, by decide,
    fun kb => ?_⟩
  · rw [assemble_eq_none_iff, ← wellFormed_iff, Bool.not_eq_true]
  · have hkb : kb.toNat < 256 := kb.isLt
    simp only [List.mem_cons, List.not_mem_nil, or_false] at hp
    rcases hp with rfl | rfl | rfl | rfl | rfl | rfl <;> simp [AsmLine.assemble, AsmLine.wellFormed, hkb]
  · simp only [List.mem_cons, List.not_mem_nil, or_false] at hp
    rcases hp with rfl | rfl <;> simp [AsmLine.assemble, AsmLine.wellFormed]
  · simpa [encode] using congrArg (BitVec.ofNat 32) (toNat_layerWord 0x05 kb)

/-! ## Running a decoded command (R155, R156) -/

/-- The core's turn while a decoded command runs. -/
theorem coreTurn_of_decode {s : State} {i : Instr} (hb : s.status.busy = true) (hi : decode s.curCmd = .ok i) :
    coreTurn s = exec i s := by
  simp only [coreTurn, completeCommand, hb, hi, if_true]

/-- Settles O3: whether or not its turn stands in the event list, the core completes the decoded command. -/
theorem stepRunsDecodedCommand : Obligations.StepRunsDecodedCommand := by
  refine fun s i hb hi => ⟨fun hnil => ?_, fun rest hrest => (step_coreTurn hrest).trans (coreTurn_of_decode hb hi)⟩
  rw [step, hnil]
  exact coreTurn_of_decode hb hi

/-- Settles O5: acceptance puts the word in `cur_cmd`, and the decoder reads the command back from it. -/
theorem commandWriteThenCoreTurnRunsIt : Obligations.CommandWriteThenCoreTurnRunsIt := by
  intro s i rest hb hi
  rw [run_two_of_cmdWrite hb hi, completeCommand, State.accept_curCmd, decode_encode]
  rfl

end Sys2Proof.Machine
end

section
/-! Every event does to a state with its internal registers hidden what it does to the state, but for the internal
registers it leaves (10_state.md R38). -/

namespace Sys2Proof.Machine

/-! ## What hiding leaves alone -/

/-- While a command runs its word is not hidden. -/
theorem hideInternal_of_busy {s : State} (hb : s.status.busy = true) :
    s.hideInternal = s.setSched Scheduler.reset := by
  simp only [State.hideInternal, hb, if_true, State.setSched]

theorem hideInternal_hideInternal (s : State) : s.hideInternal.hideInternal = s.hideInternal := by
  cases hb : s.status.busy <;> simp [State.hideInternal, hb]

theorem runningRanges_hideInternal (s : State) : runningRanges s.hideInternal = runningRanges s := by
  cases hb : s.status.busy with
  | false => rw [runningRanges_of_idle hb, runningRanges_of_idle (s := s.hideInternal) hb]
  | true =>
    rw [hideInternal_of_busy hb]
    rfl

/-! ## The core's turn -/

/-- Outcomes with the internal registers hidden are equal when they are of the same kind and their next states are equal
so. -/
theorem mapNext_hideInternal_of_outcomeRel {a b : Result}
    (h : OutcomeRel (fun t u => t.hideInternal = u.hideInternal) a b) :
    mapNext State.hideInternal a = mapNext State.hideInternal b := by
  cases a <;> cases b <;> simp_all [OutcomeRel, mapNext]

/-- No command reads what another left in the internal registers. -/
theorem exec_setSched (i : Instr) (s : State) (sc : Scheduler) :
    mapNext State.hideInternal (exec i (s.setSched sc)) = mapNext State.hideInternal (exec i s) :=
  mapNext_hideInternal_of_outcomeRel (exec_rel (i := i) (s := s.setSched sc) rfl rfl rfl rfl rfl rfl (fun _ => rfl)
    (fun _ => rfl) (fun _ => rfl) (fun _ _ _ _ _ => rfl) (fun _ _ _ _ _ _ => rfl) (fun _ _ _ _ _ => rfl))

theorem completeCommand_setSched (s : State) (sc : Scheduler) :
    mapNext State.hideInternal (completeCommand (s.setSched sc)) = mapNext State.hideInternal (completeCommand s) := by
  simp only [completeCommand, State.setSched_curCmd]
  cases decode s.curCmd with
  | error e => rfl
  | ok i => exact exec_setSched i s sc

/-- Between commands the core does nothing. -/
theorem coreTurn_of_idle {s : State} (hb : s.status.busy = false) : coreTurn s = .next s := if_neg (by simp [hb])

theorem coreTurn_hideInternal (s : State) :
    mapNext State.hideInternal (coreTurn s.hideInternal) = mapNext State.hideInternal (coreTurn s) := by
  cases hb : s.status.busy with
  | false =>
    rw [coreTurn_of_idle hb, coreTurn_of_idle (s := s.hideInternal) hb]
    exact congrArg Host.Outcome.next (hideInternal_hideInternal s)
  | true =>
    rw [hideInternal_of_busy hb]
    simpa only [coreTurn, State.setSched_status, hb, if_true] using completeCommand_setSched s _

/-! ## Accesses -/

theorem readReg_hideInternal (s : State) (r : Reg) : readReg s.hideInternal r = (readReg s r).hideInternal := by
  cases r with
  | blkWord w =>
    cases hb : s.status.busy with
    | false =>
      rw [readReg_of_idle hb, readReg_of_idle (s := s.hideInternal) hb]
      rfl
    | true =>
      rw [readReg_blkWord_of_busy hb, readReg_blkWord_of_busy (s := s.hideInternal) hb]
      rfl
  | id | cmd | status | err | keyLen | src | dst | len | outLen | keyWord => rfl

theorem writeOperand_hideInternal (s : State) (r : Reg) (v : Word) :
    writeOperand s.hideInternal r v = (writeOperand s r v).hideInternal := by
  cases r <;> rfl

theorem writeReg_hideInternal (s : State) (r : Reg) (v : Word) :
    (writeReg s.hideInternal r v).hideInternal = (writeReg s r v).hideInternal := by
  cases r with
  | cmd =>
    cases hb : s.status.busy with
    | false =>
      rw [writeReg_cmd_of_idle hb, writeReg_cmd_of_idle (s := s.hideInternal) hb]
      rfl
    | true =>
      rw [writeReg_cmd_of_busy hb, writeReg_cmd_of_busy (s := s.hideInternal) hb]
      exact hideInternal_hideInternal { s with status := { s.status with cmdovr := true } }
  | status => exact hideInternal_hideInternal (writeReg s .status v)
  | id | err | outLen => exact hideInternal_hideInternal s
  | keyLen | src | dst | len | keyWord | blkWord =>
    cases hb : s.status.busy with
    | false =>
      rw [writeReg_operand_of_idle rfl hb, writeReg_operand_of_idle (s := s.hideInternal) rfl hb,
        writeOperand_hideInternal, hideInternal_hideInternal]
    | true =>
      rw [writeReg_operand_of_busy rfl hb, writeReg_operand_of_busy (s := s.hideInternal) rfl hb]
      exact hideInternal_hideInternal { s with status := { s.status with wign := true } }

theorem readOffset_hideInternal (s : State) (o : Nat) :
    readOffset s.hideInternal o = (readOffset s o).hideInternal := by
  unfold readOffset
  cases Reg.ofOffset o with
  | none => rfl
  | some r => exact readReg_hideInternal s r

theorem writeOffset_hideInternal (s : State) (o : Nat) (v : Word) :
    (writeOffset s.hideInternal o v).hideInternal = (writeOffset s o v).hideInternal := by
  unfold writeOffset
  cases Reg.ofOffset o with
  | none => exact hideInternal_hideInternal s
  | some r => exact writeReg_hideInternal s r v

theorem hostMemRead_hideInternal (s : State) (a : Nat) :
    hostMemRead s.hideInternal a = mapNext State.hideInternal (hostMemRead s a) := by
  have hdst : inRunningDst s.hideInternal a = inRunningDst s a := by
    simp only [inRunningDst, runningRanges_hideInternal]
  by_cases ha : a < s.cfg.memBytes
  · cases hr : inRunningDst s a with
    | true =>
      rw [hostMemRead_running ha hr, hostMemRead_running (s := s.hideInternal) ha (hdst.trans hr)]
      rfl
    | false =>
      cases hb : Memory.get s.mem a with
      | none =>
        rw [hostMemRead_none ha hr hb, hostMemRead_none (s := s.hideInternal) ha (hdst.trans hr) hb]
        rfl
      | some b =>
        rw [hostMemRead_some ha hr hb, hostMemRead_some (s := s.hideInternal) ha (hdst.trans hr) hb]
        rfl
  · have ha := Nat.le_of_not_lt ha
    rw [hostMemRead_outside ha, hostMemRead_outside (s := s.hideInternal) ha]
    rfl

theorem hostMemWrite_hideInternal (s : State) (a : Nat) (v : Byte) :
    hostMemWrite s.hideInternal a v = mapNext State.hideInternal (hostMemWrite s a v) := by
  have hrange : inRunningRange s.hideInternal a = inRunningRange s a := by
    simp only [inRunningRange, runningRanges_hideInternal]
  by_cases ha : a < s.cfg.memBytes
  · cases hr : inRunningRange s a with
    | true =>
      rw [hostMemWrite_running v ha hr, hostMemWrite_running (s := s.hideInternal) v ha (hrange.trans hr)]
      rfl
    | false =>
      rw [hostMemWrite_plain v ha hr, hostMemWrite_plain (s := s.hideInternal) v ha (hrange.trans hr)]
      rfl
  · have ha := Nat.le_of_not_lt ha
    rw [hostMemWrite_outside v ha, hostMemWrite_outside (s := s.hideInternal) v ha]
    rfl

theorem mapNext_hideInternal_mapNext (r : Result) :
    mapNext State.hideInternal (mapNext State.hideInternal r) = mapNext State.hideInternal r := by
  cases r with
  | next t => exact congrArg Host.Outcome.next (hideInternal_hideInternal t)
  | fault e | refused e => rfl

theorem hostAccess_hideInternal (a : Access) (s : State) :
    mapNext State.hideInternal (hostAccess a s.hideInternal) = mapNext State.hideInternal (hostAccess a s) := by
  cases a with
  | regRead o width =>
    simp only [hostAccess]
    split_ifs
    · refine congrArg Host.Outcome.next ?_
      rw [readOffset_hideInternal, hideInternal_hideInternal]
    · exact congrArg Host.Outcome.next (hideInternal_hideInternal (s.respond .busError))
  | regWrite o width v =>
    simp only [hostAccess]
    split_ifs
    · exact congrArg (fun t => Host.Outcome.next (t.respond .taken)) (writeOffset_hideInternal s o v)
    · exact congrArg Host.Outcome.next (hideInternal_hideInternal (s.respond .busError))
  | memRead addr => exact (congrArg _ (hostMemRead_hideInternal s addr)).trans (mapNext_hideInternal_mapNext _)
  | memWrite addr v => exact (congrArg _ (hostMemWrite_hideInternal s addr v)).trans (mapNext_hideInternal_mapNext _)

/-! ## Reset -/

theorem memAfterReset_hideInternal (s : State) : memAfterReset s.hideInternal = memAfterReset s := by
  cases hb : s.status.busy with
  | false =>
    rw [memAfterReset_of_no_ranges (runningRanges_of_idle hb),
      memAfterReset_of_no_ranges (runningRanges_of_idle (s := s.hideInternal) hb)]
    rfl
  | true =>
    have hr := runningRanges_hideInternal s
    have hc := completeCommand_setSched s Scheduler.reset
    rw [hideInternal_of_busy hb] at hr ⊢
    unfold memAfterReset
    rw [hr]
    cases runningRanges s with
    | none => rfl
    | some ranges =>
      revert hc
      generalize completeCommand s = x
      generalize completeCommand (s.setSched Scheduler.reset) = y
      intro hc
      cases y <;> cases x <;> simp only [mapNext, reduceCtorEq, Host.Outcome.next.injEq, State.setSched_mem] at hc ⊢
      next t u =>
        have hmem : t.hideInternal.mem = u.hideInternal.mem := congrArg State.mem hc
        exact congrArg (Memory.mixBytes s.mem · _ _ _) hmem

theorem applyReset_hideInternal (s : State) : applyReset s.hideInternal = applyReset s := by
  unfold applyReset
  rw [memAfterReset_hideInternal]
  rfl

/-! ## Steps -/

/-- A step does not see whether the internal registers are hidden. -/
theorem step_hideInternal (s : State) :
    mapNext State.hideInternal (step s.hideInternal) = mapNext State.hideInternal (step s) := by
  have hi : s.hideInternal.inbox = s.inbox := rfl
  unfold step
  rw [hi]
  cases s.inbox with
  | nil => exact coreTurn_hideInternal s
  | cons e rest =>
    cases e with
    | host a => exact hostAccess_hideInternal a s.popInbox
    | coreTurn => exact coreTurn_hideInternal s.popInbox
    | reset => exact congrArg (fun t => Host.Outcome.next (State.hideInternal t)) (applyReset_hideInternal s.popInbox)

/-- Settles O53: a step does the same to a state and to it with its internal registers hidden. -/
theorem internalRegistersAreUnobservable : Obligations.InternalRegistersAreUnobservable := by
  intro s s' h
  rw [← step_hideInternal s, h, step_hideInternal s']

end Sys2Proof.Machine
end

section
/-! The default generator's permutations (40_layers.md R94). -/

namespace Sys2Proof.Machine

theorem identityPerm_bijective : Perm.Bijective identityPerm := fun i j h => by
  simpa [identityPerm] using h

/-- Each turn of the loop swaps two entries. -/
theorem fisherYates_bijective (i : Nat) (hi : i < 16) (s : BitVec 31) {p : Perm} (hp : Perm.Bijective p) :
    Perm.Bijective (fisherYates i hi s p) := by
  induction i generalizing s p with
  | zero => exact hp
  | succ i ih => exact ih _ _ (hp.swap _ _)

/-- Settles O31: the loop starts from the identity, and its swaps keep a bijection. -/
theorem defaultGeneratorGivesBijections : Obligations.DefaultGeneratorGivesBijections :=
  ⟨fun _ => fisherYates_bijective 15 _ _ identityPerm_bijective, by decide⟩

end Sys2Proof.Machine
end

section
/-! What every command, the core's turn and every step leave alone (10_state.md R22 to R34, 20_memory.md R62). -/

namespace Sys2Proof.Machine

/-! ## The frame of every command (R26, R105, R120, R149) -/

/-- A command that completes writes `BLK`, `MEM`, `OUT_LEN`, `ERR` and internal registers at most, and ends `BUSY`. -/
theorem exec_frame {i : Instr} {s t : State} (h : exec i s = .next t) :
    t = { s with blk := t.blk, mem := t.mem, outLen := t.outLen, err := t.err, sched := t.sched,
                 status := { s.status with busy := false } } := by
  rcases exec_cases h with ⟨e, rfl⟩ | ⟨x, sc, -, -, rfl⟩ | ⟨n, d, bs, sc, -, -, -, -, ⟨k, -, rfl⟩ | ⟨-, rfl⟩⟩ <;> rfl

/-- A message command does not write `BLK`. -/
theorem exec_blk_of_ranges {i : Instr} {s t : State} (h : exec i s = .next t) (hi : messageRanges i s ≠ none) :
    t.blk = s.blk := by
  rcases exec_cases h with ⟨e, rfl⟩ | ⟨x, sc, hn, -, -⟩ | ⟨n, d, bs, sc, -, -, -, -, ⟨k, -, rfl⟩ | ⟨-, rfl⟩⟩
  · rfl
  · exact absurd hn hi
  · rfl
  · rfl

/-- A layer, round or block command does not write `OUT_LEN`. -/
theorem exec_outLen_of_no_ranges {i : Instr} {s t : State} (h : exec i s = .next t) (hi : messageRanges i s = none) :
    t.outLen = s.outLen := by
  rcases exec_cases h with ⟨e, rfl⟩ | ⟨x, sc, -, -, rfl⟩ | ⟨n, d, bs, sc, hr, -⟩
  · rfl
  · rfl
  · exact absurd (hi.symm.trans hr) nofun

/-- Settles O50: each way a command ends writes no other register. -/
theorem commandsKeepTheOtherRegisters : Obligations.CommandsKeepTheOtherRegisters := fun _ _ _ h =>
  ⟨exec_frame h, exec_blk_of_ranges h, fun hi => ⟨exec_mem_of_no_ranges h hi, exec_outLen_of_no_ranges h hi⟩⟩

/-! ## The core's turn (R62, R156) -/

/-- The core's turn writes what a command may write. -/
theorem coreTurn_frame {s t : State} (h : coreTurn s = .next t) :
    t = { s with blk := t.blk, mem := t.mem, outLen := t.outLen, err := t.err, sched := t.sched,
                 status := { s.status with busy := false } } := by
  rcases coreTurn_cases h with ⟨hb, rfl⟩ | ⟨-, rfl⟩ | ⟨-, i, -, he⟩
  · rw [← hb]
  · rfl
  · exact exec_frame he

/-- A step that is the core's, whether or not its turn stands in the event list. -/
theorem step_of_coreMoves {s : State} (h : s.CoreMoves) : step s = coreTurn s.popInbox := by
  rcases h with hnil | ⟨rest, hrest⟩
  · have hpop : s.popInbox = s := by
      rw [State.popInbox, hnil, List.tail_nil, ← hnil]
    rw [hpop, step, hnil]
  · rw [step_coreTurn hrest, State.popInbox, hrest, List.tail_cons]

/-- While a command runs the core's turn ends it, or it reads a byte without a value (R56). -/
theorem coreTurn_total {s : State} (hb : s.status.busy = true) :
    (∃ t, coreTurn s = .next t) ∨ coreTurn s = .fault .unwrittenRead := by
  simp only [coreTurn, completeCommand, hb, if_true]
  cases decode s.curCmd with
  | error e => exact .inl ⟨_, rfl⟩
  | ok i => exact exec_total i s

/-- Settles O56: the core's turn ends every accepted word, legal or not, and takes its own event only. -/
theorem acceptedCommandCompletes : Obligations.AcceptedCommandCompletes := by
  intro s hb hc
  rw [step_of_coreMoves hc]
  refine (coreTurn_total (s := s.popInbox) hb).imp_left fun ⟨t, ht⟩ => ⟨t, ht, ?_, ?_⟩
  · rw [coreTurn_status ht]
  · rw [coreTurn_frame ht]
    rfl

/-- Settles O59: while idle the core's turn does nothing, and an access that is no write only answers. -/
theorem idleStateChangesOnlyByHostWrites : Obligations.IdleStateChangesOnlyByHostWrites := by
  intro s t hb h
  rcases step_cases h with ⟨-, ht⟩ | ⟨a, rest, hi, ht⟩ | ⟨hr, -⟩
  · rw [coreTurn_of_idle (s := s.popInbox) hb] at ht
    cases ht
    exact .inr (.inr (.inr rfl))
  · rcases hostAccess_cases ht with e | ⟨addr, v, rfl, -⟩ | ⟨r, v, rfl, -⟩
    · exact .inr (.inr (.inr e))
    · exact .inr (.inr (.inl ⟨addr, v, rest, hi⟩))
    · exact .inr (.inl ⟨_, _, v, rest, hi⟩)
  · exact .inl hr

/-! ## Which events change a register -/

/-- The registers of `t` that differ from those of `s` are ones a host write while idle (`written`) or the core's
completion of a command (`completes`) may change. -/
def State.ChangesBy (s t : State) (written : Reg → Prop) (completes : Prop) : Prop :=
  (t.key ≠ s.key → s.status.busy = false ∧ ∃ w, written (.keyWord w)) ∧
  (t.keyLen ≠ s.keyLen → s.status.busy = false ∧ written .keyLen) ∧
  (t.src ≠ s.src → s.status.busy = false ∧ written .src) ∧
  (t.dst ≠ s.dst → s.status.busy = false ∧ written .dst) ∧
  (t.len ≠ s.len → s.status.busy = false ∧ written .len) ∧
  (t.blk ≠ s.blk → (s.status.busy = false ∧ ∃ w, written (.blkWord w)) ∨ completes) ∧
  (t.err ≠ s.err ∨ t.outLen ≠ s.outLen → (s.status.busy = false ∧ written .cmd) ∨ completes)

/-- A register write changes the register it names, and `CMD` changes `ERR` and `OUT_LEN`, each while idle. -/
theorem writeReg_changesBy {s : State} {r : Reg} {v : Word} {written : Reg → Prop} (completes : Prop) (hr : written r) :
    s.ChangesBy (writeReg s r v) written completes := by
  rcases writeReg_cases s r v with
    ⟨rfl, hb, e⟩ | ⟨-, -, e⟩ | ⟨-, e⟩ | ⟨-, -, e⟩ | ⟨-, hb, e⟩ | e <;> rw [e]
  · simp [State.ChangesBy, hb, hr]
  · simp [State.ChangesBy]
  · simp [State.ChangesBy]
  · simp [State.ChangesBy]
  · have hkey : ∀ w, r = .keyWord w → ∃ w, written (.keyWord w) := fun w e => ⟨w, e ▸ hr⟩
    have hblk : ∀ w, r = .blkWord w → ∃ w, written (.blkWord w) := fun w e => ⟨w, e ▸ hr⟩
    cases r <;> simp_all [State.ChangesBy, writeOperand]
  · simp [State.ChangesBy]

/-- The core's turn changes `BLK`, `ERR` and `OUT_LEN` at most, and only while a command runs. -/
theorem coreTurn_changesBy {s t : State} (written : Reg → Prop) (h : coreTurn s = .next t) :
    s.ChangesBy t written (s.status.busy = true) := by
  cases hb : s.status.busy with
  | false =>
    rw [coreTurn_of_idle hb] at h
    cases h
    simp [State.ChangesBy]
  | true =>
    rw [coreTurn_frame h]
    simp [State.ChangesBy]

theorem writeReg_cfg (s : State) (r : Reg) (v : Word) : (writeReg s r v).cfg = s.cfg := by
  rcases writeReg_cases s r v with
    ⟨-, -, e⟩ | ⟨-, -, e⟩ | ⟨-, e⟩ | ⟨-, -, e⟩ | ⟨-, -, e⟩ | e <;> rw [e]
  · rfl
  · rw [writeOperand_frame]

/-- Settles O60: the three kinds of step, each at the state with its event taken. -/
theorem registersChangeOnlyByNamedEvents : Obligations.RegistersChangeOnlyByNamedEvents := by
  intro s t h
  rcases step_cases h with ⟨hc, ht⟩ | ⟨a, rest, hi, ht⟩ | ⟨hr, rfl⟩
  · have hturn := coreTurn_changesBy (fun r => ∃ v, s.WritesReg r v) ht
    exact ⟨by rw [coreTurn_frame ht]; rfl, .inr (by simpa [State.ChangesBy, hc] using hturn)⟩
  · rcases hostAccess_cases ht with e | ⟨addr, v, rfl, -, -, e⟩ | ⟨r, v, rfl, e⟩
    · rw [e]; exact ⟨rfl, .inr (by simp)⟩
    · rw [e]; exact ⟨rfl, .inr (by simp)⟩
    · have hw := writeReg_changesBy (s := s.popInbox) (v := v) (written := fun r => ∃ v, s.WritesReg r v)
        (s.status.busy = true ∧ s.CoreMoves) ⟨v, rest, hi⟩
      rw [e]
      exact ⟨writeReg_cfg s.popInbox r v, .inr hw⟩
  · exact ⟨rfl, .inl hr⟩

end Sys2Proof.Machine
end

section
/-! The invariant `State.Inv`: it holds after reset, and every command, access and step keeps it. -/

namespace Sys2Proof.Machine

/-- The invariant looks at the parameters, `MEM`, `ERR`, `OUT_LEN`, the internal registers and `BUSY` only. -/
theorem State.Inv.of_eq {s t : State} (hs : s.Inv) (hcfg : t.cfg = s.cfg) (hmem : t.mem = s.mem) (herr : t.err = s.err)
    (hout : t.outLen = s.outLen) (hsched : t.sched = s.sched) (hbusy : t.status.busy = s.status.busy) : t.Inv where
  cfg_legal := hcfg ▸ hs.cfg_legal
  mem_wf := hmem ▸ hs.mem_wf
  mem_inside := by rw [hmem, hcfg]; exact hs.mem_inside
  err_legal := herr ▸ hs.err_legal
  busy_clear := by rw [hbusy, herr, hout]; exact hs.busy_clear
  failed_empty := by rw [herr, hout]; exact hs.failed_empty
  outLen_inside := by rw [hout, hcfg]; exact hs.outLen_inside
  rnd_legal := hsched ▸ hs.rnd_legal

/-! ## Reset -/

/-- The reset values have the invariant in a legal core, with any `MEM` in canonical form and inside `MEM_BYTES`. -/
theorem resetWith_inv {cfg : Config} (hcfg : cfg.Legal) {mem : Memory} (hwf : Memory.wf mem)
    (hin : ∀ a b, Memory.get mem a = some b → a < cfg.memBytes) (inbox : List Event) (draws : Nat) :
    State.Inv { State.resetWith cfg with mem := mem, inbox := inbox, draws := draws } where
  cfg_legal := hcfg
  mem_wf := hwf
  mem_inside := hin
  err_legal := rfl
  busy_clear := nofun
  failed_empty := fun h => absurd rfl h
  outLen_inside := Nat.zero_le _
  rnd_legal := (by decide : Scheduler.reset.rnd.toNat < 16)

theorem standard_legal : Config.standard.Legal where
  memBytes_pos := by decide
  memBytes_le := by decide
  conforming := defaultGeneratorGivesBijections.1

/-- Settles O55: the reset values have the invariant in every legal core, and the standard core is one. -/
theorem resetHasTheInvariant : Obligations.ResetHasTheInvariant :=
  have hreset : ∀ cfg : Config, cfg.Legal → (State.resetWith cfg).Inv := fun _ hcfg =>
    resetWith_inv hcfg List.Pairwise.nil nofun [] 0
  ⟨hreset _ standard_legal, hreset⟩

/-! ## The commands -/

/-- Bytes stored in a legal destination range are inside `MEM_BYTES`. -/
theorem get_writeBytes_inside_memBytes {m : Memory} {a k : Nat} {bs : List Byte} {n : Nat}
    (hin : ∀ k b, Memory.get m k = some b → k < n) (hbs : a + bs.length ≤ n) {b : Byte}
    (h : Memory.get (Memory.writeBytes m a bs) k = some b) : k < n := by
  by_cases hk : k < a ∨ a + bs.length ≤ k
  · rw [Memory.get_writeBytes_outside m a bs hk] at h
    exact hin k b h
  · omega

/-- A command writes inside `MEM_BYTES` only: its destination range has passed the range check. -/
theorem exec_mem_inside {i : Instr} {s t : State} (h : exec i s = .next t)
    (hin : ∀ a b, Memory.get s.mem a = some b → a < s.cfg.memBytes) (a : Nat) (b : Byte)
    (hb : Memory.get t.mem a = some b) : a < s.cfg.memBytes := by
  rcases exec_cases h with ⟨e, rfl⟩ | ⟨x, sc, -, -, rfl⟩ | ⟨n, d, bs, sc, -, ⟨-, hdst, -⟩, hlen, -, ht⟩
  · exact hin a b hb
  · exact hin a b hb
  · have hmem : t.mem = Memory.writeBytes s.mem s.dst.toNat bs := by
      rcases ht with ⟨k, -, rfl⟩ | ⟨-, rfl⟩ <;> rfl
    exact get_writeBytes_inside_memBytes hin (by omega) (hmem ▸ hb)

theorem completeCommand_mem_inside {s t : State} (h : completeCommand s = .next t)
    (hin : ∀ a b, Memory.get s.mem a = some b → a < s.cfg.memBytes) (a : Nat) (b : Byte)
    (hb : Memory.get t.mem a = some b) : a < s.cfg.memBytes := by
  unfold completeCommand at h
  cases hd : decode s.curCmd with
  | error e =>
    rw [hd] at h
    cases h
    exact hin a b hb
  | ok i =>
    rw [hd] at h
    exact exec_mem_inside h hin a b hb

/-- An error ends a command: `OUT_LEN` is still 0 from its acceptance. -/
theorem State.Inv.raise {s : State} (hs : s.Inv) (hb : s.status.busy = true) (e : ErrCode) : (s.raise e).Inv where
  cfg_legal := hs.cfg_legal
  mem_wf := hs.mem_wf
  mem_inside := hs.mem_inside
  err_legal := legalErr_code e
  busy_clear := nofun
  failed_empty := fun _ => (hs.busy_clear hb).2
  outLen_inside := hs.outLen_inside
  rnd_legal := hs.rnd_legal

theorem State.Inv.complete {s : State} (hs : s.Inv) : s.complete.Inv where
  cfg_legal := hs.cfg_legal
  mem_wf := hs.mem_wf
  mem_inside := hs.mem_inside
  err_legal := hs.err_legal
  busy_clear := nofun
  failed_empty := hs.failed_empty
  outLen_inside := hs.outLen_inside
  rnd_legal := hs.rnd_legal

/-- A completion with an `OUT_LEN`: `ERR` is still 0 from the command's acceptance. -/
theorem State.Inv.complete_setOutLen {s : State} (hs : s.Inv) (hb : s.status.busy = true) {k : Nat}
    (hk : k ≤ s.cfg.memBytes) : (s.setOutLen k).complete.Inv where
  cfg_legal := hs.cfg_legal
  mem_wf := hs.mem_wf
  mem_inside := hs.mem_inside
  err_legal := hs.err_legal
  busy_clear := nofun
  failed_empty := fun h => absurd (hs.busy_clear hb).1 h
  outLen_inside := Nat.le_trans (Nat.mod_le k _) hk
  rnd_legal := hs.rnd_legal

theorem State.Inv.setSched {s : State} (hs : s.Inv) {sc : Scheduler} (hsc : s.MayLeave sc) : (s.setSched sc).Inv where
  cfg_legal := hs.cfg_legal
  mem_wf := hs.mem_wf
  mem_inside := hs.mem_inside
  err_legal := hs.err_legal
  busy_clear := hs.busy_clear
  failed_empty := hs.failed_empty
  outLen_inside := hs.outLen_inside
  rnd_legal := hsc hs.rnd_legal

theorem State.Inv.setMem {s : State} (hs : s.Inv) {m : Memory} (hwf : Memory.wf m)
    (hin : ∀ a b, Memory.get m a = some b → a < s.cfg.memBytes) : State.Inv { s with mem := m } where
  cfg_legal := hs.cfg_legal
  mem_wf := hwf
  mem_inside := hin
  err_legal := hs.err_legal
  busy_clear := hs.busy_clear
  failed_empty := hs.failed_empty
  outLen_inside := hs.outLen_inside
  rnd_legal := hs.rnd_legal

theorem exec_inv {i : Instr} {s t : State} (hs : s.Inv) (hb : s.status.busy = true) (h : exec i s = .next t) :
    t.Inv := by
  rcases exec_cases h with ⟨e, rfl⟩ | ⟨x, sc, -, hsc, rfl⟩ | ⟨n, d, bs, sc, -, ⟨-, hdst, -⟩, hlen, hsc, ht⟩
  · exact hs.raise hb e
  · exact ((hs.of_eq (t := s.setBlk x) rfl rfl rfl rfl rfl rfl).setSched hsc).complete
  · have hstored : (s.storeDst bs).Inv := hs.setMem (Memory.wf_writeBytes hs.mem_wf _ _) fun a b hget =>
      get_writeBytes_inside_memBytes hs.mem_inside (by omega) hget
    have hleft : ((s.storeDst bs).setSched sc).Inv := hstored.setSched hsc
    rcases ht with ⟨k, hk, rfl⟩ | ⟨-, rfl⟩
    · exact hleft.complete_setOutLen hb (Nat.le_trans (by omega) hdst)
    · exact hleft.raise hb _

theorem coreTurn_inv {s t : State} (hs : s.Inv) (h : coreTurn s = .next t) : t.Inv := by
  rcases coreTurn_cases h with ⟨-, rfl⟩ | ⟨hb, rfl⟩ | ⟨hb, i, -, he⟩
  · exact hs
  · exact hs.raise hb _
  · exact exec_inv hs hb he

/-! ## Accesses and steps -/

/-- Acceptance clears `ERR` and `OUT_LEN`. -/
theorem State.Inv.accept {s : State} (hs : s.Inv) (w : Word) : (s.accept w).Inv where
  cfg_legal := hs.cfg_legal
  mem_wf := hs.mem_wf
  mem_inside := hs.mem_inside
  err_legal := rfl
  busy_clear := fun _ => ⟨rfl, rfl⟩
  failed_empty := fun _ => rfl
  outLen_inside := Nat.zero_le _
  rnd_legal := hs.rnd_legal

theorem writeReg_inv {s : State} (hs : s.Inv) (r : Reg) (v : Word) : (writeReg s r v).Inv := by
  rcases writeReg_cases s r v with
    ⟨-, -, e⟩ | ⟨-, -, e⟩ | ⟨-, e⟩ | ⟨-, -, e⟩ | ⟨-, -, e⟩ | e <;> rw [e]
  · exact hs.accept v
  · exact hs.of_eq rfl rfl rfl rfl rfl rfl
  · exact hs.of_eq rfl rfl rfl rfl rfl rfl
  · exact hs.of_eq rfl rfl rfl rfl rfl rfl
  · rw [writeOperand_frame]
    exact hs.of_eq rfl rfl rfl rfl rfl rfl
  · exact hs

theorem hostAccess_inv {a : Access} {s t : State} (hs : s.Inv) (h : hostAccess a s = .next t) : t.Inv := by
  rcases hostAccess_cases h with e | ⟨addr, v, -, haddr, -, rfl⟩ | ⟨r, v, -, rfl⟩
  · rw [e]
    exact hs.of_eq rfl rfl rfl rfl rfl rfl
  · refine (hs.setMem (Memory.wf_set hs.mem_wf addr v) fun a b hget => ?_).of_eq rfl rfl rfl rfl rfl rfl
    rw [Memory.get_set] at hget
    split_ifs at hget with ha
    · exact ha ▸ haddr
    · exact hs.mem_inside a b hget
  · exact (writeReg_inv hs r v).of_eq rfl rfl rfl rfl rfl rfl

theorem applyReset_inv {s : State} (hs : s.Inv) : (applyReset s).Inv := by
  refine resetWith_inv hs.cfg_legal (wf_memAfterReset hs.mem_wf) (fun a b hget => ?_) _ _
  rcases get_memAfterReset hs.mem_wf a hget with hold | ⟨t, ht, hnew⟩
  · exact hs.mem_inside a b hold
  · exact completeCommand_mem_inside ht hs.mem_inside a b hnew

/-- Settles O54: a step is the core's turn, a host access or a reset, at the state with its event taken. -/
theorem everyStepKeepsTheInvariant : Obligations.EveryStepKeepsTheInvariant := by
  intro s t hs h
  have hpop : s.popInbox.Inv := hs.of_eq rfl rfl rfl rfl rfl rfl
  rcases step_cases h with ⟨-, ht⟩ | ⟨a, rest, -, ht⟩ | ⟨-, rfl⟩
  · exact coreTurn_inv hpop ht
  · exact hostAccess_inv hpop ht
  · exact applyReset_inv hpop

end Sys2Proof.Machine
end

section
/-! Host accesses to `MEM` one after another (20_memory.md R52, R56, R59). -/

namespace Sys2Proof.Machine

/-! ## One access while idle -/

theorem inRunningDst_of_idle {s : State} (hb : s.status.busy = false) (a : Nat) : inRunningDst s a = false := by
  simp only [inRunningDst, runningRanges_of_idle hb]

theorem inRunningRange_of_idle {s : State} (hb : s.status.busy = false) (a : Nat) : inRunningRange s a = false := by
  simp only [inRunningRange, runningRanges_of_idle hb]

/-- The destination range is one of the running ranges. -/
theorem inRunningDst_of_not_inRunningRange {s : State} {a : Nat} (h : inRunningRange s a = false) :
    inRunningDst s a = false :=
  (inRunningDst_eq_false_iff s a).2 fun src dst hr => ((inRunningRange_eq_false_iff s a).1 h src dst hr).2

/-- Settles O20: outside the running ranges the port sets and reads the byte, and `MEM_BYTES` bounds both. -/
theorem memIsOrdinaryMemory : Obligations.MemIsOrdinaryMemory := by
  refine ⟨fun _ _ => rfl, fun s a v ha hr => ⟨⟨_, hostMemWrite_plain v ha hr, rfl, fun k => Memory.get_set .., ?_⟩,
    hostMemRead_none ha (inRunningDst_of_not_inRunningRange hr)⟩,
    fun s a v ha => ⟨hostMemRead_outside ha, hostMemWrite_outside v ha⟩⟩
  have hdst : inRunningDst s a = false := inRunningDst_of_not_inRunningRange hr
  exact hostMemRead_some (s := State.respond { s with mem := Memory.set s.mem a v } .taken) ha hdst
    (Memory.get_set_self ..)

/-! ## Accesses one after another, while idle -/

theorem step_memWrite_of_idle {s : State} {a : Nat} {v : Byte} {rest : List Event} (hb : s.status.busy = false)
    (ha : a < s.cfg.memBytes) (hi : s.inbox = .host (.memWrite a v) :: rest) :
    step s = .next { s with mem := Memory.set s.mem a v, resp := .taken, inbox := rest } :=
  (step_host hi).trans (hostMemWrite_plain (s := { s with inbox := rest }) v ha (inRunningRange_of_idle hb a))

theorem step_memRead_of_idle {s : State} {a : Nat} {b : Byte} {rest : List Event} (hb : s.status.busy = false)
    (ha : a < s.cfg.memBytes) (hget : Memory.get s.mem a = some b) (hi : s.inbox = .host (.memRead a) :: rest) :
    step s = .next { s with resp := .byte b, inbox := rest } :=
  (step_host hi).trans (hostMemRead_some (s := { s with inbox := rest }) ha (inRunningDst_of_idle hb a) hget)

/-- The byte writes of a sequence write the sequence. -/
theorem run_events_mb {s : State} {a : Nat} {bs : List Byte} {rest : List Event} (hb : s.status.busy = false)
    (ha : a + bs.length ≤ s.cfg.memBytes) (hi : s.inbox = HostProgram.events (HostProgram.mb a bs) ++ rest) :
    ∃ resp, core.run bs.length s =
      .next { s with mem := Memory.writeBytes s.mem a bs, resp := resp, inbox := rest } := by
  induction bs generalizing s a with
  | nil =>
    obtain rfl : s.inbox = rest := hi
    exact ⟨s.resp, rfl⟩
  | cons b bs ih =>
    rw [List.length_cons] at ha
    obtain ⟨resp, hrun⟩ := ih (s := { s with mem := Memory.set s.mem a b, resp := .taken, inbox := _ }) hb
      (by show a + 1 + bs.length ≤ s.cfg.memBytes; omega) rfl
    exact ⟨resp, (run_succ_of_step _ (step_memWrite_of_idle hb (by omega) hi)).trans hrun⟩

theorem answers_succ_of_step {s t : State} {n : Nat} {rs : List Response} (h : step s = .next t)
    (hr : HostProgram.answers n t = some rs) : HostProgram.answers (n + 1) s = some (t.resp :: rs) := by
  simp only [HostProgram.answers, h, hr, Option.map_some]

/-- The byte reads of a sequence that stands in `MEM` are answered with its bytes. -/
theorem answers_events_rb {s : State} {a : Nat} {bs : List Byte} {rest : List Event} (hb : s.status.busy = false)
    (ha : a + bs.length ≤ s.cfg.memBytes) (hs : s.Holds a bs)
    (hi : s.inbox = HostProgram.events (HostProgram.rb a bs.length) ++ rest) :
    HostProgram.answers bs.length s = some (bs.map .byte) := by
  induction bs generalizing s a with
  | nil => rfl
  | cons b bs ih =>
    rw [List.length_cons] at ha
    have hhead : Memory.get s.mem a = some b := hs 0 (Nat.succ_pos _)
    have htail : s.Holds (a + 1) bs := fun j hj => by
      rw [Nat.add_assoc, Nat.add_comm 1]
      exact hs (j + 1) (Nat.succ_lt_succ hj)
    have hrest := ih (s := { s with resp := .byte b, inbox := _ }) hb
      (by show a + 1 + bs.length ≤ s.cfg.memBytes; omega) htail rfl
    exact answers_succ_of_step (step_memRead_of_idle hb (by omega) hhead hi) hrest

/-! ## The bytes of a value, the least significant first -/

theorem byteAnswers_map_byte (bs : List Byte) : HostProgram.byteAnswers (bs.map .byte) = some bs := by
  induction bs with
  | nil => rfl
  | cons b bs ih => simp [HostProgram.byteAnswers, ih]

theorem leValue_lt (bs : List Byte) : HostProgram.leValue bs < 2 ^ (8 * bs.length) := by
  induction bs with
  | nil => exact Nat.one_pos
  | cons b bs ih =>
    have hb : b.toNat < 256 := b.isLt
    rw [HostProgram.leValue, List.length_cons, Nat.mul_add, Nat.pow_add]
    omega

/-- Byte `j` of a value is byte 0 of the value without its `j` least significant bytes. -/
theorem ofNat_leValue_div (bs : List Byte) {j : Nat} (h : j < bs.length) :
    BitVec.ofNat 8 (HostProgram.leValue bs / 2 ^ (8 * j)) = bs[j] := by
  induction bs generalizing j with
  | nil => exact absurd h (Nat.not_lt_zero j)
  | cons b bs ih =>
    have hb : b.toNat < 256 := b.isLt
    cases j with
    | zero =>
      apply BitVec.eq_of_toNat_eq
      simp only [HostProgram.leValue, BitVec.toNat_ofNat, List.getElem_cons_zero]
      omega
    | succ j =>
      have hdiv : (b.toNat + 256 * HostProgram.leValue bs) / 256 = HostProgram.leValue bs := by omega
      rw [List.getElem_cons_succ, ← ih (Nat.lt_of_succ_lt_succ h), HostProgram.leValue, Nat.mul_succ, Nat.pow_add,
        Nat.mul_comm (2 ^ (8 * j)), ← Nat.div_div_eq_div_mul]
      exact congrArg (fun x => BitVec.ofNat 8 (x / 2 ^ (8 * j))) hdiv

theorem length_leBytes (n v : Nat) : (HostProgram.leBytes n v).length = n := by simp [HostProgram.leBytes]

theorem leBytes_getElem (n v : Nat) {j : Nat} (h : j < (HostProgram.leBytes n v).length) :
    (HostProgram.leBytes n v)[j] = BitVec.ofNat 8 (v / 2 ^ (8 * j)) := by
  simp [HostProgram.leBytes, Nat.pow_mul]

/-- Reading one byte after writing the bytes of a value. -/
theorem get_writeBytes_leBytes (m : Memory) (a n v k : Nat) :
    Memory.get (Memory.writeBytes m a (HostProgram.leBytes n v)) k =
      if a ≤ k ∧ k < a + n then some (BitVec.ofNat 8 (v / 2 ^ (8 * (k - a)))) else Memory.get m k := by
  have hlen := length_leBytes n v
  split_ifs with hk
  · obtain ⟨j, rfl⟩ := Nat.exists_eq_add_of_le hk.1
    rw [Memory.get_writeBytes_inside _ _ _ (by omega), leBytes_getElem, Nat.add_sub_cancel_left]
  · exact Memory.get_writeBytes_outside m a _ (by omega)

/-- Settles O21: a wide access is the accesses to its bytes, and these are the value's bytes in base 256. -/
theorem wideMemAccessesAreLittleEndian : Obligations.WideMemAccessesAreLittleEndian := by
  refine ⟨fun s a n v rest hb ha hi => ?_, fun s a bs rest hb ha hs hi => ?_⟩
  · have hlen : (HostProgram.leBytes n v).length = n := length_leBytes n v
    obtain ⟨resp, hrun⟩ := run_events_mb hb (hlen.symm ▸ ha) hi
    rw [hlen] at hrun
    exact ⟨_, hrun, rfl, get_writeBytes_leBytes s.mem a n v⟩
  · refine ⟨HostProgram.leValue bs, ?_, leValue_lt bs, fun _ h => ofNat_leValue_div bs h⟩
    simp only [HostProgram.wideAnswer, answers_events_rb hb ha hs hi, byteAnswers_map_byte, Option.map_some]

end Sys2Proof.Machine
end

section
/-! The reference scheduler and the ECB assembler compute the pure functions (41_rounds.md R119, 42_ecb.md R146). -/

namespace Sys2Proof.Machine

/-- Rounds one after another on `wblk` are the rounds on a block, and leave `dir`. -/
theorem Scheduler.foldl_rounds {step : Scheduler → Fin 16 → Scheduler} {round : Block → Fin 16 → Block}
    (hround : ∀ sc r, (step sc r).wblk = round sc.wblk r) (hdir : ∀ sc r, (step sc r).dir = sc.dir)
    (l : List (Fin 16)) (sc : Scheduler) :
    (l.foldl step sc).wblk = l.foldl round sc.wblk ∧ (l.foldl step sc).dir = sc.dir := by
  induction l generalizing sc with
  | nil => exact ⟨rfl, rfl⟩
  | cons r l ih =>
    obtain ⟨hw, hd⟩ := ih (step sc r)
    rw [List.foldl_cons, List.foldl_cons, hw, hd, hround, hdir]
    exact ⟨rfl, rfl⟩

theorem Scheduler.forwardRound_dir (g : PermGen) (K : Block) (sc : Scheduler) (r : Fin 16) :
    (sc.forwardRound g K r).dir = sc.dir := by simp only [Scheduler.forwardRound]

theorem Scheduler.inverseRound_dir (g : PermGen) (K : Block) (sc : Scheduler) (r : Fin 16) :
    (sc.inverseRound g K r).dir = sc.dir := by simp only [Scheduler.inverseRound]

theorem Scheduler.encrypt_wblk_dir (g : PermGen) (K : Block) (sc : Scheduler) (x : Block) :
    (sc.encrypt g K x).wblk = encryptBlock g x K ∧ (sc.encrypt g K x).dir = .forward := by
  have h := Scheduler.foldl_rounds (round := fun x r => roundFwd g x K[r]) (Scheduler.forwardRound_wblk g K)
    (Scheduler.forwardRound_dir g K) (List.finRange 16) (sc.load x .forward)
  rw [Scheduler.encrypt, encryptBlock]
  exact h

theorem Scheduler.decrypt_wblk_dir (g : PermGen) (K : Block) (sc : Scheduler) (y : Block) :
    (sc.decrypt g K y).wblk = decryptBlock g y K ∧ (sc.decrypt g K y).dir = .inverse := by
  have h := Scheduler.foldl_rounds (round := fun y r => roundInv g y K[r]) (Scheduler.inverseRound_wblk g K)
    (Scheduler.inverseRound_dir g K) (List.finRange 16).reverse (sc.load y .inverse)
  rw [Scheduler.decrypt, decryptBlock]
  exact h

/-- The assembler's output is the run of each block, joined, when a run's `wblk` depends on its block only. -/
theorem Scheduler.assemble_bytes {run : Scheduler → Block → Scheduler} {f : Block → Block}
    (hrun : ∀ sc b, (run sc b).wblk = f b) (q : Nat) (bs : List Block) (sc : Scheduler) :
    (Scheduler.assemble run q bs sc).1 = joinBlocks (bs.map f) := by
  induction bs generalizing q sc with
  | nil => rfl
  | cons b bs ih => simp only [Scheduler.assemble, hrun, ih, List.map_cons, joinBlocks_cons]

theorem Scheduler.encryptBytes_pad (g : PermGen) (K : Block) (sc : Scheduler) (m : List Byte) :
    (sc.encryptBytes g K (pad m)).1 = ecbEncrypt g m K := by
  have hrun : ∀ sc b, (Scheduler.encrypt g K sc b).wblk = encryptBlock g b K := fun sc b =>
    (sc.encrypt_wblk_dir g K b).1
  rw [Scheduler.encryptBytes, ecbEncrypt, Scheduler.assemble_bytes hrun]

theorem Scheduler.decryptBytes_eq (g : PermGen) (K : Block) (sc : Scheduler) (c : List Byte) :
    (sc.decryptBytes g K c).1 = ecbDecryptRaw g c K := by
  have hrun : ∀ sc b, (Scheduler.decrypt g K sc b).wblk = decryptBlock g b K := fun sc b =>
    (sc.decrypt_wblk_dir g K b).1
  rw [Scheduler.decryptBytes, ecbDecryptRaw, Scheduler.assemble_bytes hrun]

/-- Settles O40: loading a block and running the rounds on `wblk` is folding the rounds over the block, and the
assembler joins what the runs leave. -/
theorem schedulerComputesTheCipher : Obligations.SchedulerComputesTheCipher := by
  intro g K x m sc
  obtain ⟨hew, hed⟩ := sc.encrypt_wblk_dir g K x
  obtain ⟨hdw, hdd⟩ := sc.decrypt_wblk_dir g K x
  exact ⟨hew, hed, hdw, hdd, sc.encryptBytes_pad g K m, sc.decryptBytes_eq g K m⟩

end Sys2Proof.Machine
end

section
/-! The last statements of 40_layers.md and 41_rounds.md about the layer and round commands. -/

namespace Sys2Proof.Machine

/-- Settles O26: `perm_fwd` puts byte `P[i]` at `i`, and where all bytes are equal that is byte `i`. -/
theorem perfMovesLanes : Obligations.PerfMovesLanes := fun k s =>
  ⟨_, exec_perf k s, s.complete_setBlk_frame _, permFwd_getElem s.cfg.permGen s.blk k, fun heq =>
    Block.ext fun i => (permFwd_getElem s.cfg.permGen s.blk k i).trans (heq _ i)⟩

/-- Settles O29: each layer function undoes the other in every lane. -/
theorem layerInversesRestoreBlk : Obligations.LayerInversesRestoreBlk := fun k s =>
  ⟨⟨_, execAll_pair_of_next (exec_subf k s) (exec_subi k _), substInvBlock_substFwdBlock s.blk k⟩,
    ⟨_, execAll_pair_of_next (exec_subi k s) (exec_subf k _), substFwdBlock_substInvBlock s.blk k⟩,
    ⟨_, execAll_pair_of_next (exec_mix k s) (exec_mix k _), mix_mix s.blk k⟩⟩

/-- Settles O34: `round_inv` is by definition the three layers in this order. -/
theorem rndiIsTheThreeLayersReversed : Obligations.RndiIsTheThreeLayersReversed := by
  refine fun r s => ⟨fun hk => keyLengthIsCheckedFirst s _ hk (.inl ⟨r, .inr rfl⟩), fun hk => ?_⟩
  have hlayers := (execAll_cons_of_next (exec_mix s.key[r] s) _).trans
    (execAll_pair_of_next (exec_peri s.key[r] _) (exec_subi s.key[r] _))
  refine ⟨_, _, exec_rndi_of_key hk r, hlayers, ?_⟩
  simp only [State.complete_blk, State.setBlk_blk, State.complete_cfg, State.setBlk_cfg]
  exact s.complete_setBlk_frame _

end Sys2Proof.Machine
end

section
/-! A message command that reads a byte never written (20_memory.md R56). -/

namespace Sys2Proof.Machine

/-- The front of a message command whose ranges are legal and whose source has a byte without a value. -/
theorem withSource_of_unwritten {s : State} {n d : Nat} {body : List Byte → Result} (hr : s.RangesLegal n d)
    (hw : ¬s.Written s.src.toNat n) : withSource s n d body = .fault .unwrittenRead := by
  rcases withSource_cases s n d body with ⟨e, he, -⟩ | ⟨-, -, hfault⟩ | ⟨m, -, hm, hs, -⟩
  · exact absurd ((rangeCheck_eq_none_iff s n d).2 hr ▸ he) nofun
  · exact hfault
  · exact absurd (fun j hj => by rw [hs j (hm.symm ▸ hj)]; rfl) hw

/-- Settles O23: past the key and length checks each of the four commands is the front of R136 on its source range. -/
theorem unwrittenSourceByteIsAFault : Obligations.UnwrittenSourceByteIsAFault := by
  refine fun s hw => ⟨fun hr => ⟨withSource_of_unwritten hr hw, fun hk => ?_⟩,
    fun hr => ⟨withSource_of_unwritten hr hw, fun hk h0 h16 => ?_⟩⟩
  · exact (withKeyCheck_of_eq hk).trans (withSource_of_unwritten hr hw)
  · have hlen : ¬(s.len.toNat = 0 ∨ s.len.toNat % 16 ≠ 0) := by omega
    exact ((withKeyCheck_of_eq hk).trans (if_neg hlen)).trans (withSource_of_unwritten hr hw)

end Sys2Proof.Machine
end

section
/-! Reads through the ports, and host programs beside the core (20_memory.md R59, 30_encoding.md R82). -/

namespace Sys2Proof.Machine

/-- An access that is no write changes the port's answer and the draw counter only. -/
theorem hostAccess_frame_of_read {s t : State} {a : Access} (hm : ∀ addr v, a ≠ .memWrite addr v)
    (hr : ∀ o w v, a ≠ .regWrite o w v) (h : hostAccess a s = .next t) :
    t = { s with resp := t.resp, draws := t.draws } := by
  rcases hostAccess_cases h with e | ⟨addr, v, ha, -⟩ | ⟨r, v, ha, -⟩
  · exact e
  · exact absurd ha (hm _ _)
  · exact absurd ha (hr _ _ _)

/-- Settles O16: what an access can do to the rest of the state is a write. -/
theorem readsHaveNoSideEffect : Obligations.ReadsHaveNoSideEffect := by
  refine ⟨fun s t o w => hostAccess_frame_of_read nofun nofun, fun s t a => hostAccess_frame_of_read nofun nofun,
    fun s r hb => ?_⟩
  rw [hostAccess_regRead, readReg_of_idle hb]
  rfl

namespace HostProgram

/-- Rounds of `WAIT` while `BUSY = 1` leave the host at `WAIT` and give the machine the port's last answer. -/
theorem play_host_busy {p : Running} {rest : List Op} (h : p.todo = .wait :: rest) (hb : p.core.status.busy = true)
    (n : Nat) : play (List.replicate (n + 1) .host) p =
      .next { p with core := p.core.respond (.word p.core.status.word) } := by
  induction n generalizing p with
  | zero => exact play_cons_of_move [] (move_wait_busy h hb)
  | succ n ih =>
    rw [List.replicate_succ, play_cons_of_move _ (move_wait_busy h hb)]
    exact ih (p := { p with core := p.core.respond _ }) h hb

/-- However many rounds, the machine differs in the port's answer at most. -/
theorem exists_play_host_busy {p : Running} {rest : List Op} (h : p.todo = .wait :: rest)
    (hb : p.core.status.busy = true) (n : Nat) :
    ∃ v, play (List.replicate n .host) p = .next { p with core := p.core.respond v } := by
  cases n with
  | zero => exact ⟨p.core.resp, rfl⟩
  | succ n => exact ⟨_, play_host_busy h hb n⟩

/-- Between commands the core's turns change nothing. -/
theorem play_core_idle {p : Running} (hb : p.core.status.busy = false) (m : Nat) :
    play (List.replicate m .core) p = .next p := by
  induction m with
  | zero => rfl
  | succ m ih => rw [List.replicate_succ, play_cons_of_move _ (move_core (coreTurn_of_idle hb)), ih]

/-- Settles O57: the rounds before the core's turn change the port's answer only, which the core does not read and the
last round overwrites. -/
theorem waitLoopsUntilBusyIsZero : Obligations.WaitLoopsUntilBusyIsZero := by
  refine fun p rest h => ⟨fun hb => play_cons_of_move [] (move_wait_idle h hb), fun hb =>
    ⟨play_host_busy h hb, fun n m t ht => ?_⟩⟩
  obtain ⟨v, hrounds⟩ := exists_play_host_busy h hb n
  have hturn : coreTurn (p.core.respond v) = .next (t.respond v) := by
    rw [coreTurn_respond, ht]
    rfl
  have hidle : (t.respond v).status.busy = false := by
    rw [State.respond_status, coreTurn_status ht]
  rw [List.append_assoc, play_append _ hrounds, List.cons_append, play_cons_of_move _ (move_core hturn),
    play_append _ (play_core_idle hidle m)]
  exact play_cons_of_move [] (move_wait_idle h hidle)

/-- Settles O58: a step takes the event put first and is the access or the core's turn at the state without it; `WAIT`'s
read answers the word of `STATUS`. -/
theorem hostProgramTurnsAreSteps : Obligations.HostProgramTurnsAreSteps := by
  intro p
  have hstep : ∀ a, step { p.core with inbox := .host a :: p.core.inbox } = hostAccess a p.core :=
    fun a => step_host rfl
  refine ⟨fun h => by simp only [move, hostMove, h], fun a rest h => ?_, fun rest h => ?_, rfl⟩
  · simp only [move, hostMove, h, hstep]
  · have hread : hostAccess (.regRead 0x08 .w32) p.core = .next (p.core.respond (.word p.core.status.word)) :=
      readStatus p.core
    simp only [move, hostMove, h, hstep, readStatus, hread, Running.andThen, State.respond_resp, loopsOn_status,
      State.respond_status]

end HostProgram

end Sys2Proof.Machine
end

section
/-! What the commands read (40_layers.md R105, 41_rounds.md R120, 42_ecb.md R149). -/

namespace Sys2Proof.Machine

/-- The outcomes are of the same kind, with the same `BLK` in their next states. -/
abbrev SameBlk : Result → Result → Prop := OutcomeRel fun t t' => t.blk = t'.blk

/-- A layer command reads the parameters and `BLK` only. -/
theorem exec_layer_sameBlk {s s' : State} {k : Byte} {i : Instr}
    (hi : i ∈ [Instr.subf k, .subi k, .perf k, .peri k, .mix k]) (hcfg : s.cfg = s'.cfg) (hblk : s.blk = s'.blk) :
    SameBlk (exec i s) (exec i s') := by
  simp only [List.mem_cons, List.not_mem_nil, or_false] at hi
  rcases hi with rfl | rfl | rfl | rfl | rfl
  · show substFwdBlock s.blk k = substFwdBlock s'.blk k
    rw [hblk]
  · show substInvBlock s.blk k = substInvBlock s'.blk k
    rw [hblk]
  · show permFwd s.cfg.permGen s.blk k = permFwd s'.cfg.permGen s'.blk k
    rw [hcfg, hblk]
  · show permInv s.cfg.permGen s.blk k = permInv s'.cfg.permGen s'.blk k
    rw [hcfg, hblk]
  · show mix s.blk k = mix s'.blk k
    rw [hblk]

/-- A command without ranges reads the parameters, `BLK`, `KEY` and `KEY_LEN` only. -/
theorem exec_sameBlk_of_no_ranges {s s' : State} {i : Instr} (hi : messageRanges i s = none) (hcfg : s.cfg = s'.cfg)
    (hblk : s.blk = s'.blk) (hkey : s.key = s'.key) (hkl : s.keyLen = s'.keyLen) : SameBlk (exec i s) (exec i s') := by
  have key : ∀ {body body' : Result}, SameBlk body body' → SameBlk (withKeyCheck s body) (withKeyCheck s' body') := by
    intro body body' h
    simp only [withKeyCheck, hkl]
    split_ifs
    · exact h
    · exact hblk
  cases i with
  | subf k | subi k | perf k | peri k | mix k => exact exec_layer_sameBlk (k := k) (by simp) hcfg hblk
  | rndf r =>
    refine key (show roundFwd s.cfg.permGen s.blk s.key[r] = roundFwd s'.cfg.permGen s'.blk s'.key[r] from ?_)
    rw [hcfg, hblk, hkey]
  | rndi r =>
    refine key (show roundInv s.cfg.permGen s.blk s.key[r] = roundInv s'.cfg.permGen s'.blk s'.key[r] from ?_)
    rw [hcfg, hblk, hkey]
  | encb =>
    refine key (show encryptBlock s.cfg.permGen s.blk s.key = encryptBlock s'.cfg.permGen s'.blk s'.key from ?_)
    rw [hcfg, hblk, hkey]
  | decb =>
    refine key (show decryptBlock s.cfg.permGen s.blk s.key = decryptBlock s'.cfg.permGen s'.blk s'.key from ?_)
    rw [hcfg, hblk, hkey]
  | pad | unpad | enc | dec => exact absurd hi nofun

theorem blk_eq_of_sameBlk {a b : Result} {t t' : State} (h : SameBlk a b) (ha : a = .next t) (hb : b = .next t') :
    t.blk = t'.blk := by
  subst ha hb
  exact h

/-- A message command neither reads nor writes `BLK`. -/
theorem exec_setBlk_of_ranges {s : State} {i : Instr} (hi : messageRanges i s ≠ none) (b : Block) :
    exec i (s.setBlk b) = mapNext (·.setBlk b) (exec i s) :=
  eq_mapNext_of_outcomeRel (exec_rel rfl rfl rfl rfl rfl rfl (fun hn => absurd hn hi) (fun _ => rfl) (fun _ => rfl)
    (fun _ _ _ hn _ => absurd hn hi) (fun _ _ _ _ _ h => by rw [h rfl]; rfl) (fun _ _ _ _ h => by rw [h rfl]; rfl))

/-- Settles O51: two runs of a command on states that agree on what it reads. -/
theorem commandsDependOnTheirOperandsOnly : Obligations.CommandsDependOnTheirOperandsOnly :=
  ⟨fun _ _ _ _ _ hi hcfg hblk hkey hkl h h' =>
      blk_eq_of_sameBlk (exec_sameBlk_of_no_ranges hi hcfg hblk hkey hkl) h h',
    fun _ _ _ _ _ _ hi hcfg hblk h h' => blk_eq_of_sameBlk (exec_layer_sameBlk hi hcfg hblk) h h',
    fun _ _ b hi => exec_setBlk_of_ranges hi b⟩

end Sys2Proof.Machine
end
